-- ==== Sys2Proof/Word.lean ====
section
/-! DEFINITION. The word types of the block (spec/00_scope.md R8): bit 0 is the least significant bit and every quantity is unsigned. -/

namespace Sys2Proof

/-- A byte, 8 bits, value 0 to 255 (R8). Its addition wraps modulo 256: it is the spec's `+8` (R9). -/
abbrev Byte := BitVec 8

/-- A command word on port `cmd` (R70, R71). -/
abbrev CmdWord := BitVec 16

/-- A response word on port `rsp` (R70, R73). -/
abbrev RspWord := BitVec 20

/-- The `err` field of a response, and the register `CAUSE` (R73, R28). -/
abbrev ErrCode := BitVec 4

end Sys2Proof
end

