-- ==== Sys2Proof/Syntax.lean ====
section
/-! DEFINITION. The six commands, one constructor per row of spec/opcode_table.json (spec/30_encoding.md R74). -/

namespace Sys2Proof

/-- A command of the RC4E command set, version 1 (R1, R74). The only operand is one unsigned byte (R72). -/
inductive Instr where
  /-- `RST`: put the block in the reset state (R140). -/
  | rst
  /-- `STAT`: return `STATUS` (R141). -/
  | stat
  /-- `KPUT b`: append key byte `b` to the key buffer (R100). -/
  | kput (b : Byte)
  /-- `KSA`: build the CipherState from the key buffer (R102). -/
  | ksa
  /-- `NEXT`: one PRGA step, return the keystream byte (R121). -/
  | next
  /-- `XORB b`: one PRGA step, return the keystream byte XOR `b` (R122). -/
  | xorb (b : Byte)
  deriving DecidableEq, Repr

end Sys2Proof
end

