-- ==== Sys2Proof/WellFormed.lean ====
section
/-! DEFINITION. Which instructions and which command words are well formed: the opcode map of spec/30_encoding.md R74 as rows of pattern and mask. -/

namespace Sys2Proof

/-- One row of the opcode map (R74): a word `w` matches the row when `w & mask = pattern`. -/
structure OpcodeRow where
  mnemonic : String
  pattern : CmdWord
  mask : CmdWord
  deriving DecidableEq, Repr

/-- The opcode map, row for row (R74). -/
def opcodeTable : List OpcodeRow :=
  [⟨"RST", 0x0100, 0xFFFF⟩, ⟨"STAT", 0x0200, 0xFFFF⟩, ⟨"KPUT", 0x1000, 0xFF00⟩,
   ⟨"KSA", 0x1100, 0xFFFF⟩, ⟨"NEXT", 0x2000, 0xFFFF⟩, ⟨"XORB", 0x2100, 0xFF00⟩]

/-- The word matches the row (R74). -/
def OpcodeRow.covers (row : OpcodeRow) (w : CmdWord) : Bool :=
  (w &&& row.mask) == row.pattern

/-- The word check: some row of the opcode map covers the word. Every other word is ILLEGAL (R76). -/
def legalWord (w : CmdWord) : Bool :=
  opcodeTable.any (fun row => row.covers w)

/-- The row of the opcode map that an instruction belongs to (R74). -/
def Instr.row : Instr → OpcodeRow
  | .rst => ⟨"RST", 0x0100, 0xFFFF⟩
  | .stat => ⟨"STAT", 0x0200, 0xFFFF⟩
  | .kput _ => ⟨"KPUT", 0x1000, 0xFF00⟩
  | .ksa => ⟨"KSA", 0x1100, 0xFFFF⟩
  | .next => ⟨"NEXT", 0x2000, 0xFFFF⟩
  | .xorb _ => ⟨"XORB", 0x2100, 0xFF00⟩

/-- Every instruction term is well formed: format N has no operand, and format B admits any byte (R71, R72),
which the operand's type already says. The check that can fail is `legalWord`, on words. -/
def Instr.wellFormed : Instr → Bool
  | .rst => true
  | .stat => true
  | .kput _ => true
  | .ksa => true
  | .next => true
  | .xorb _ => true

end Sys2Proof
end

