-- ==== Sys2Proof/Decode.lean ====
section
/-! DEFINITION. The decoder, total on all 65536 words (spec/30_encoding.md R75), and the encoder (R71, R74). -/

namespace Sys2Proof

/-- `op = cmd[15:8]` (R71). -/
def opField (w : CmdWord) : Byte := w.extractLsb' 8 8

/-- `arg = cmd[7:0]` (R71); for format B it is the operand byte, taken exactly as it stands (R72). -/
def argField (w : CmdWord) : Byte := w.extractLsb' 0 8

/-- Why a word is ILLEGAL (R76). The block treats every reason alike: code 1 when not faulted (R172). -/
inductive IllegalWord where
  /-- `op` is none of 0x01, 0x02, 0x10, 0x11, 0x20, 0x21 (R76). -/
  | unassignedOp (op : Byte)
  /-- A format-N word whose `arg` is not 0x00 (R76). -/
  | nonzeroArg (op arg : Byte)
  deriving DecidableEq, Repr

/-- The result of decoding: a command, or ILLEGAL with the reason by name (R75, R76). -/
inductive Decoded where
  | command (i : Instr)
  | illegal (why : IllegalWord)
  deriving DecidableEq, Repr

/-- Which of R76's two kinds an illegal word is: a format-N opcode with a nonzero `arg`, or an unassigned opcode. -/
def illegalReason (w : CmdWord) : IllegalWord :=
  let op := opField w
  if op = 0x01 ∨ op = 0x02 ∨ op = 0x11 ∨ op = 0x20 then .nonzeroArg op (argField w)
  else .unassignedOp op

/-- Decoding, a total function of the word and of nothing else, in the order R75 writes it. -/
def decode (w : CmdWord) : Decoded :=
  if w = 0x0100 then .command .rst
  else if w = 0x0200 then .command .stat
  else if opField w = 0x10 then .command (.kput (argField w))
  else if w = 0x1100 then .command .ksa
  else if w = 0x2000 then .command .next
  else if opField w = 0x21 then .command (.xorb (argField w))
  else .illegal (illegalReason w)

/-- The command of a decoded word, if it is one. -/
def Decoded.command? : Decoded → Option Instr
  | .command i => some i
  | .illegal _ => none

/-- `op` of each command (R74). -/
def opcode : Instr → Byte
  | .rst => 0x01
  | .stat => 0x02
  | .kput _ => 0x10
  | .ksa => 0x11
  | .next => 0x20
  | .xorb _ => 0x21

/-- `arg` of each command: 0x00 for format N, the operand byte for format B (R71). -/
def argument : Instr → Byte
  | .rst => 0x00
  | .stat => 0x00
  | .kput b => b
  | .ksa => 0x00
  | .next => 0x00
  | .xorb b => b

/-- The assembled word `{op, arg}` (R71, R79). -/
def encode (i : Instr) : CmdWord := opcode i ++ argument i

/-- The command word whose bits, numbered as spec/opcode_table.json numbers them, are the low `nbits` bits of `w`;
the bits above are 0. A command word crosses its port whole (R52), so no byte order enters. -/
def tableWord (nbits w : Nat) : CmdWord := BitVec.ofNat 16 (w % 2 ^ nbits)

/-- The host's question about a table row: what the decoder reads from an instruction whose bits are `w`.
A command is one word of 16 bits (R71, R78), so a longer instruction is no command. -/
def decodeTableWord (nbits w : Nat) : Option Instr :=
  if 16 < nbits then none else (decode (tableWord nbits w)).command?

end Sys2Proof
end

