-- ==== Sys2Proof/Config.lean ====
section
/-! DEFINITION. The parameters of the block (spec/00_scope.md R5) and the free values (spec/10_state.md R33). -/

namespace Sys2Proof

/-- `NSTATE`, the entries of `S`; also the entries of `K` and the number of key-schedule rounds (R5). -/
def Config.nstate : Nat := 256

/-- The number of rounds of the key schedule (R5). -/
def Config.ksaRounds : Nat := 256

/-- The default of `NINST`, the number of independent blocks, which the spec leaves OPEN (R5, R187, D19).
Machine/Blocks.lean is written for every number of blocks. -/
def Config.ninstDefault : Nat := 1

/-- The n-th unspecified byte of a source: what a cursor holds after `RST` or a hardware reset "unspecified" (R33, R140).
Each block has a source of its own, since blocks share nothing (R187). It has no body, so nothing can be proved of its
value (log entry 5). -/
opaque Config.freeByte : Nat → Nat → Byte

end Sys2Proof
end

