-- ==== Sys2Proof/Machine/State.lean ====
section
/-! DEFINITION. The state of the machine: the seven items of spec/10_state.md R20, the host's side of the ports (R70), and the state after reset (R33). -/

namespace Sys2Proof.Machine

/-- One of the block's two internal byte memories, `S` or `K` (R50): (index, byte) pairs, indices strictly rising.
An index that is not listed holds no value: nothing has written it since reset, and R33 leaves it unspecified. -/
abbrev Memory := List Host.Cell

/-- The canonical form: indices strictly rising, all of them in the address space 0 to 255 (R50).
No listed entry can equal what an unlisted index reads as, since that is no value at all. -/
abbrev Memory.wf (m : Memory) : Prop :=
  m.Pairwise (fun x y => x.1 < y.1) ∧ ∀ x ∈ m, x.1 < Config.nstate

/-- The CipherState of the source: the permutation `S` and the cursors `i` and `j` (R3, R150). -/
structure CipherState where
  S : Memory
  i : Byte
  j : Byte
  deriving DecidableEq, Repr

/-- A response word on port `rsp` as the pair `(err, data)` of R73. -/
structure Response where
  err : ErrCode
  data : BitVec 16
  deriving DecidableEq, Repr

/-- One thing the host does at the ports (R70, R205). Nothing else exists. -/
inductive HostEvent where
  /-- A command word on port `cmd`; its response is taken before the next event (R206). -/
  | command (w : CmdWord)
  /-- A reset event on port `rst` between commands (R200). -/
  | reset
  /-- A reset event on port `rst` while the command `w` is being executed: the command is abandoned (R200). -/
  | resetDuring (w : CmdWord)
  deriving DecidableEq, Repr

/-- The fault causes that can be latched in `CAUSE` (R171). These are ordinary transitions of the block, not stops. -/
inductive FaultCause where
  /-- Code 1: the word decodes to ILLEGAL (R172). -/
  | illegal
  /-- Code 2: `KSA` with `KLEN = 0` (R102). -/
  | emptyKey
  /-- Code 3: `KPUT` with `KLEN = 256` (R100). -/
  | keyOverflow
  /-- Code 4: `NEXT` or `XORB` with `RDY = 0` (R121, R122). -/
  | notReady
  deriving DecidableEq, Repr

/-- The machine: the block's state (R20) and, after it, the model's own fields, which are no state of the block (R31). -/
structure State where
  /-- The memory `S` (R21). -/
  S : Memory
  /-- The cursor `i` (R22). -/
  i : Byte
  /-- The cursor `j` (R23). -/
  j : Byte
  /-- The key buffer `K` (R26). -/
  K : Memory
  /-- The fill count `KLEN`, 9 bits (R26). -/
  klen : BitVec 9
  /-- The flag `RDY` (R27). -/
  rdy : Bool
  /-- The fault latch `CAUSE`, 4 bits (R28). -/
  cause : ErrCode
  /-- The model's own: what the host still does at ports `cmd` and `rst`, first event first (R205, R212; log entry 1). -/
  inputs : List HostEvent
  /-- The model's own: the responses given on port `rsp`, oldest first (R70, R73; log entry 2). -/
  responses : List Response
  /-- The model's own: which source of free bytes this block draws from; no command reads it (R187; log entries 5, 12). -/
  freeSource : Nat
  /-- The model's own: how many free bytes have been drawn (log entry 5). -/
  freeCount : Nat
  deriving DecidableEq, Repr

/-- Why the machine stops. The block itself never stops: its step is total (R170). Both reasons are the ones R34 asks of a
model that keeps arrays; no state reached from reset raises either. -/
inductive Fault where
  /-- Raised by `NEXT` and `XORB` in a state with `RDY = 1` in which an entry of `S` they read holds no value. Safe: the
  machine stops, and only in states the invariant of R32 rules out. -/
  | unwrittenS
  /-- Raised by `KSA` in a state with `KLEN > 0` in which a key byte it reads holds no value. Safe: the machine stops, and
  only in states the invariant of R26 rules out. -/
  | unwrittenK
  deriving DecidableEq, Repr

/-- Why an instruction has no meaning. -/
inductive Refusal where
  /-- Raised by an arm of `exec` that has no meaning yet; no arm raises it now. Safe: nothing is proved of such a step. -/
  | notModelled (mnemonic : String)
  deriving DecidableEq, Repr

/-- The state after hardware reset (R33): `RDY`, `CAUSE` and `KLEN` are 0, and `S` and `K` hold no value.
`i` and `j` are unspecified there; DESIGN CHOICE 0, unsafe (log entry 4). The host has sent nothing and no response has
been given. -/
def State.reset : State where
  S := []
  i := 0
  j := 0
  K := []
  klen := 0
  rdy := false
  cause := 0
  inputs := []
  responses := []
  freeSource := 0
  freeCount := 0

end Sys2Proof.Machine
end

