-- ==== Sys2Proof/Machine/Flags.lean ====
section
/-! DEFINITION. The derived bit `FLT`, the `STATUS` view (spec/10_state.md R28, R29) and the codes of faults and responses (spec/60_exceptions.md R171). -/

namespace Sys2Proof.Machine

/-- `err = 0`, success (R171). -/
def okCode : ErrCode := 0

/-- `err = 5`, FAULTED: given in a response only, never latched (R171, R175). -/
def faultedCode : ErrCode := 5

/-- The code a fault latches in `CAUSE` and reports in `err` (R171). -/
def causeCode : FaultCause → ErrCode
  | .illegal => 1
  | .emptyKey => 2
  | .keyOverflow => 3
  | .notReady => 4

/-- `FLT`: 1 when `CAUSE` is not 0 (R28). -/
def flt (s : State) : Bool := s.cause != 0

/-- `STATUS = {CAUSE, FLT, RDY, 0, KLEN}` (R29). -/
def status (s : State) : BitVec 16 :=
  s.cause ++ BitVec.ofBool (flt s) ++ BitVec.ofBool s.rdy ++ 0#1 ++ s.klen

/-- The 20-bit word on port `rsp`: `rsp[19:16] = err`, `rsp[15:0] = data` (R73). -/
def responseWord (r : Response) : RspWord := r.err ++ r.data

end Sys2Proof.Machine
end

