-- ==== Sys2Proof/Machine/Operands.lean ====
section
/-! DEFINITION. Every effective-index computation of the block (spec/20_memory.md R51) and the arithmetic they use (R9, R123). -/

namespace Sys2Proof.Machine

/-- `a +8 b`: addition of bytes modulo 256, the carry dropped, no flag set (R9, R123). -/
def add8 (a b : Byte) : Byte := a + b

/-- `zext_16(v)` of a byte (R10, R77). -/
def zext16 (v : Byte) : BitVec 16 := v.setWidth 16

/-- `KPUT` writes `K` at `KLEN[7:0]` (R51, R100). -/
def kputIndex (klen : BitVec 9) : Byte := klen.extractLsb' 0 8

/-- Round `r` of `KSA` reads `K` at `r mod KLEN` (R51, R102). It is used with `KLEN` not 0 only (R9). -/
def keyIndex (r : Nat) (klen : BitVec 9) : Byte := BitVec.ofNat 8 (r % klen.toNat)

/-- The running sum of round `r` of `KSA`, from the sum before, `S[r]` and the key byte (R51, R102). -/
def ksaSum (t sr kr : Byte) : Byte := add8 (add8 t sr) kr

/-- A PRGA step's new `i` (R51, R120). -/
def nextI (i : Byte) : Byte := add8 i 1

/-- A PRGA step's new `j`, from the old `j` and `S[i]` at the new `i` (R51, R120). -/
def nextJ (j si : Byte) : Byte := add8 j si

/-- The index of the keystream byte, from the two bytes after the swap (R51, R120). -/
def outIndex (si sj : Byte) : Byte := add8 si sj

end Sys2Proof.Machine
end

