-- ==== Sys2Proof/Machine/Ops.lean ====
section
/-! DEFINITION. The named operations over memory and registers: reads, writes and swaps of `S` and `K` (spec/20_memory.md), the response, the entry into a fault and the exit from it (spec/60_exceptions.md), and the host's next event (spec/70_reset_and_hazards.md). -/

namespace Sys2Proof.Machine

/-- `MemRead(m, a, 1)` (R10): the byte at index `a`; no value where nothing has written (R34). A read changes nothing (R54). -/
def Memory.read : Memory → Byte → Option Byte
  | [], _ => none
  | (n, v) :: m, a => if n = a.toNat then some v else Memory.read m a

/-- `MemWrite(m, a, 1, v)` (R10): changes only the byte at index `a` (R54). -/
def Memory.write : Memory → Byte → Byte → Memory
  | [], a, v => [(a.toNat, v)]
  | (n, u) :: m, a, v =>
    if a.toNat < n then (a.toNat, v) :: (n, u) :: m
    else if n = a.toNat then (a.toNat, v) :: m
    else (n, u) :: Memory.write m a v

/-- `swap(m, a, b)`: both reads before both writes, so that equal indices change nothing (R10, R54). -/
def Memory.swap (m : Memory) (a b : Byte) : Option Memory := do
  let ta ← m.read a
  let tb ← m.read b
  pure ((m.write a tb).write b ta)

/-- What the set-up of `KSA` leaves in `S`: index `n` holds the value `n`, for every `n` (R55, R102). -/
def Memory.identity : Memory :=
  (List.range Config.nstate).map (fun n => (n, BitVec.ofNat 8 n))

/-- The key buffer that holds the bytes of `key`, `key[0]` first (R52, R72). -/
def Memory.ofBytes (key : List Byte) : Memory :=
  key.zipIdx.map (fun x => (x.2, x.1))

/-- One round of the key schedule on the running sum `t` and the current `S` (R102). -/
def ksaRound (K : Memory) (klen : BitVec 9) (st : Byte × Memory) (r : Nat) : Option (Byte × Memory) := do
  let sr ← st.2.read (BitVec.ofNat 8 r)
  let kr ← K.read (keyIndex r klen)
  let t := ksaSum st.1 sr kr
  let S ← st.2.swap (BitVec.ofNat 8 r) t
  pure (t, S)

/-- The key schedule: identity, running sum 0, rounds 0, 1, ..., 255 in that order, then `i = j = 0` (R102).
PRESUMED by the spec itself, and so here: the start of the sum and the order of the rounds (log entries 6, 7).
No value where a key byte holds none. -/
def keySchedule (K : Memory) (klen : BitVec 9) : Option CipherState := do
  let st ← (List.range Config.ksaRounds).foldlM (ksaRound K klen) (0, Memory.identity)
  pure { S := st.2, i := 0, j := 0 }

/-- One PRGA step: the keystream byte and the next CipherState (R120). No value where an entry of `S` holds none. -/
def prga (c : CipherState) : Option (Byte × CipherState) := do
  let i := nextI c.i
  let si ← c.S.read i
  let j := nextJ c.j si
  let S ← c.S.swap i j
  let a ← S.read i
  let b ← S.read j
  let z ← S.read (outIndex a b)
  pure (z, { S := S, i := i, j := j })

/-- The CipherState a state holds (R20). -/
def cipher (s : State) : CipherState := { S := s.S, i := s.i, j := s.j }

/-- Put a CipherState into the state. -/
def setCipher (s : State) (c : CipherState) : State := { s with S := c.S, i := c.i, j := c.j }

/-- `respond(err, data)`: the one response of a command, on port `rsp` (R10, R73). -/
def respond (s : State) (err : ErrCode) (data : BitVec 16) : State :=
  { s with responses := s.responses ++ [⟨err, data⟩] }

/-- TAKING A FAULT, `raise Fault(code)`: `CAUSE` is latched, the response is `(code, 0)`, nothing else changes (R173). -/
def raiseFault (s : State) (c : FaultCause) : State :=
  respond { s with cause := causeCode c } (causeCode c) 0

/-- The refusal of a command while the block is faulted: response `(5, 0)`, no state change (R175). -/
def refuseFaulted (s : State) : State := respond s faultedCode 0

/-- LEAVING A FAULT, and reset: the block is put in the reset state of R33 (R140, R177, R200). `S` and `K` hold no value;
the cursors hold the next two free bytes of the block's own source: that the unspecified cursors are drawn so, and that
different blocks have different sources, is the model's DESIGN CHOICE (log entries 5, 12). The host's side of the ports stays. -/
def resetBlock (s : State) : State :=
  { s with
    S := []
    i := Config.freeByte s.freeSource s.freeCount
    j := Config.freeByte s.freeSource (s.freeCount + 1)
    K := []
    klen := 0
    rdy := false
    cause := 0
    freeCount := s.freeCount + 2 }

/-- Append a key byte: `K[KLEN[7:0]] <- b`, `KLEN <- KLEN + 1` (R100). -/
def pushKey (s : State) (b : Byte) : State :=
  { s with K := s.K.write (kputIndex s.klen) b, klen := s.klen + 1 }

/-- What a completed key schedule writes: the CipherState, `RDY <- 1`, `KLEN <- 0` (R102). -/
def installCipher (s : State) (c : CipherState) : State :=
  { setCipher s c with rdy := true, klen := 0 }

/-- The envelope around every command but `RST` and `STAT`: refused while faulted (R170, R175, R176). -/
def unlessFaulted (s : State) (run : Host.Outcome State Fault Refusal) : Host.Outcome State Fault Refusal :=
  if s.cause = 0 then run else .next (refuseFaulted s)

/-- The shared body of `NEXT` and `XORB`: one PRGA step whose response is made from the keystream byte (R121, R122). -/
def streamStep (s : State) (data : Byte → Byte) : Host.Outcome State Fault Refusal :=
  unlessFaulted s <|
    if s.rdy then
      match prga (cipher s) with
      | some (z, c) => .next (respond (setCipher s c) okCode (zext16 (data z)))
      | none => .fault .unwrittenS
    else .next (raiseFault s .notReady)

/-- A word that decodes to ILLEGAL: `Fault(1)`, or refused while faulted (R76, R170, R172). -/
def execIllegal (s : State) : Host.Outcome State Fault Refusal :=
  unlessFaulted s (.next (raiseFault s .illegal))

/-- The host's next event and the state in which it has been taken from the port (R205, R206). -/
def takeEvent (s : State) : Option (HostEvent × State) :=
  match s.inputs with
  | [] => none
  | e :: rest => some (e, { s with inputs := rest })

/-- The host presents the command word `w` as its next event (R70). -/
def presentWord (s : State) (w : CmdWord) : State :=
  { s with inputs := .command w :: s.inputs }

end Sys2Proof.Machine
end

