-- ==== Sys2Proof/Machine/KeySchedule.lean ====
section
/-! DEFINITION. Key loading and key scheduling, `KPUT` and `KSA` (spec/40_key_schedule.md). -/

namespace Sys2Proof.Machine

/-- `KPUT b`: `Fault(3)` when `KLEN = 256`, else append the key byte and respond `(0, 0x0000)` (R100). `RDY` is not looked at (R101). -/
def execKput (b : Byte) (s : State) : Host.Outcome State Fault Refusal :=
  unlessFaulted s <|
    if s.klen = 256 then .next (raiseFault s .keyOverflow)
    else .next (respond (pushKey s b) okCode 0)

/-- `KSA`: `Fault(2)` when `KLEN = 0`, else run the key schedule on `K[0]` to `K[KLEN - 1]`, install the CipherState and respond
`(0, 0x0000)` (R102). `RDY` is not looked at (R103). -/
def execKsa (s : State) : Host.Outcome State Fault Refusal :=
  unlessFaulted s <|
    if s.klen = 0 then .next (raiseFault s .emptyKey)
    else
      match keySchedule s.K s.klen with
      | some c => .next (respond (installCipher s c) okCode 0)
      | none => .fault .unwrittenK

end Sys2Proof.Machine
end

