-- ==== Sys2Proof/Machine/Keystream.lean ====
section
/-! DEFINITION. Keystream generation and stream XOR, `NEXT` and `XORB` (spec/41_keystream.md). -/

namespace Sys2Proof.Machine

/-- `NEXT`: `Fault(4)` when `RDY = 0`, else one PRGA step and response `(0, zext_16(z))` (R121). -/
def execNext (s : State) : Host.Outcome State Fault Refusal :=
  streamStep s (fun z => z)

/-- `XORB b`: `Fault(4)` when `RDY = 0`, else one PRGA step and response `(0, zext_16(z ^ b))` (R122). -/
def execXorb (b : Byte) (s : State) : Host.Outcome State Fault Refusal :=
  streamStep s (fun z => z ^^^ b)

end Sys2Proof.Machine
end

