-- ==== Sys2Proof/Machine/System.lean ====
section
/-! DEFINITION. The system commands `RST` and `STAT` (spec/42_system.md). Both run whether or not the block is faulted (R170). -/

namespace Sys2Proof.Machine

/-- `RST`: the reset state, response `(0, 0x0000)`; it never faults (R140). -/
def execRst (s : State) : Host.Outcome State Fault Refusal :=
  .next (respond (resetBlock s) okCode 0)

/-- `STAT`: response `(0, STATUS)`, no state change (R141). -/
def execStat (s : State) : Host.Outcome State Fault Refusal :=
  .next (respond s okCode (status s))

end Sys2Proof.Machine
end

