-- ==== Sys2Proof/Machine/Dispatch.lean ====
section
/-! DEFINITION. The one match on instructions: each arm calls that instruction's meaning. -/

namespace Sys2Proof.Machine

def exec (i : Instr) (s : State) : Host.Outcome State Fault Refusal :=
  match i with
  | .rst => Sys2Proof.Machine.execRst s
  | .stat => Sys2Proof.Machine.execStat s
  | .kput b => Sys2Proof.Machine.execKput b s
  | .ksa => Sys2Proof.Machine.execKsa s
  | .next => Sys2Proof.Machine.execNext s
  | .xorb b => Sys2Proof.Machine.execXorb b s

end Sys2Proof.Machine
end

