-- ==== Sys2Proof/Machine/Execute.lean ====
section
/-! DEFINITION. What the block does with one command word and with one event of the host (spec/60_exceptions.md R170, spec/70_reset_and_hazards.md R200). -/

namespace Sys2Proof.Machine

/-- One command word: decode it and run its command, or treat it as ILLEGAL (R170). Each meaning holds the envelope. -/
def execWord (w : CmdWord) (s : State) : Host.Outcome State Fault Refusal :=
  match decode w with
  | .command i => exec i s
  | .illegal _ => execIllegal s

/-- One event of the host. A hardware reset wins over everything: the block is in the reset state, a command in progress is
abandoned, and there is no response (R200). -/
def execEvent (e : HostEvent) (s : State) : Host.Outcome State Fault Refusal :=
  match e with
  | .command w => execWord w s
  | .reset => .next (resetBlock s)
  | .resetDuring _ => .next (resetBlock s)

/-- The whole step: take the host's next event and execute it; with no event the block waits and holds its state
(R189, R202; log entry 9). -/
def stepEvent (s : State) : Host.Outcome State Fault Refusal :=
  match takeEvent s with
  | none => .next s
  | some (e, s') => execEvent e s'

end Sys2Proof.Machine
end

