-- ==== Sys2Proof/Machine/Step.lean ====
section
/-! DEFINITION. The step function of the machine (spec/60_exceptions.md R170) and the placing of a command word where the step reads its next one. -/

namespace Sys2Proof.Machine

/-- One step: the host's next event (R206), or waiting where there is none (R202). -/
def step (s : State) : Host.Outcome State Fault Refusal := stepEvent s

/-- The state in which the host presents, as its next event, the command word whose bits are the low `nbits` bits of `w`.
The block has no program counter (R25): this stands for the host's choice of the next command (log entry 1). -/
def State.withFetchWord (s : State) (nbits w : Nat) : State := presentWord s (tableWord nbits w)

end Sys2Proof.Machine
end

