-- ==== Sys2Proof/Machine/Composite.lean ====
section
/-! DEFINITION. The pseudo-instructions the host sends and the functions their laws are stated with (spec/30_encoding.md R80 to R83, spec/43_composite.md R150 to R154). Nothing here adds behaviour to the block. -/

namespace Sys2Proof.Machine

/-- The pseudo-instructions; there are no others (R80 to R83). The block does not know them. -/
inductive Pseudo where
  /-- `INIT key` (R80). -/
  | init (key : List Byte)
  /-- `KEYSTREAM n` (R81). -/
  | keystream (n : Nat)
  /-- `ENCRYPT data, key` (R82). -/
  | encrypt (data key : List Byte)
  /-- `DECRYPT data, key`, another name for `ENCRYPT data, key` (R82). -/
  | decrypt (data key : List Byte)
  deriving DecidableEq, Repr

/-- `INIT key`: one `KPUT` per key byte in order, then `KSA` (R80). -/
def initCommands (key : List Byte) : List Instr := key.map .kput ++ [.ksa]

/-- `KEYSTREAM n`: `NEXT` repeated `n` times (R81). -/
def keystreamCommands (n : Nat) : List Instr := List.replicate n .next

/-- `ENCRYPT data, key`: `INIT key`, one `XORB` per data byte in order, then `RST` (R82). -/
def encryptCommands (data key : List Byte) : List Instr :=
  initCommands key ++ data.map .xorb ++ [.rst]

/-- The commands a pseudo-instruction stands for (R80 to R82). -/
def expand : Pseudo → List Instr
  | .init key => initCommands key
  | .keystream n => keystreamCommands n
  | .encrypt data key => encryptCommands data key
  | .decrypt data key => encryptCommands data key

/-- The command words the host sends for a pseudo-instruction. -/
def pseudoWords (p : Pseudo) : List CmdWord := (expand p).map encode

/-- The host gives the words one after the other, each after the response to the one before (R206, R212). -/
def runWords : List CmdWord → State → Host.Outcome State Fault Refusal
  | [], s => .next s
  | w :: ws, s =>
    match execWord w s with
    | .next t => runWords ws t
    | .fault f => .fault f
    | .refused r => .refused r

/-- The host has the words ready to send, before anything else it will do. -/
def presentWords (s : State) (ws : List CmdWord) : State :=
  { s with inputs := ws.map .command ++ s.inputs }

/-- `ksa(key)`: the CipherState that `KSA` leaves when the key buffer holds `key` (R150). -/
def ksaOf (key : List Byte) : Option CipherState :=
  keySchedule (Memory.ofBytes key) (BitVec.ofNat 9 key.length)

/-- The next `n` keystream bytes from a CipherState, and the CipherState after them (R150). -/
def keystream : Nat → CipherState → Option (List Byte × CipherState)
  | 0, c => some ([], c)
  | n + 1, c => do
    let zc ← prga c
    let rest ← keystream n zc.2
    pure (zc.1 :: rest.1, rest.2)

/-- `Z_key[n]`, the `n`-th keystream byte of a key, counted from 1 (R11, R150). -/
def keystreamByte (key : List Byte) (n : Nat) : Option Byte := do
  let c ← ksaOf key
  let zs ← keystream n c
  zs.1.getLast?

/-- The byte the host takes from the response to a stream command: its low byte when `err = 0`; a response with another `err`
yields no byte (R77, R153, R208). -/
def streamByte (r : Response) : Option Byte :=
  if r.err = okCode then some (r.data.extractLsb' 0 8) else none

/-- The bytes the host takes from the responses to stream commands, in order (R82, R153). -/
def streamBytes (rs : List Response) : List Byte := rs.filterMap streamByte

/-- No response had `err != 0`: the run has not gone wrong (R212). -/
def allOk (rs : List Response) : Bool := rs.all (fun r => r.err == okCode)

/-- The responses to the `XORB` commands among the responses of one run of `ENCRYPT data, key` (R82). -/
def xorbResponses (given : List Response) (data key : List Byte) : List Response :=
  (given.drop (key.length + 1)).take data.length

/-- The result of `ENCRYPT data, key` run in the state `s`: the bytes of the responses to the `XORB` commands, in order (R82).
A run with a response of `err != 0` has no result: no `data` field of it may be used (R153, R208; log entry 18). No value where the machine
stops. -/
def encryptResult (s : State) (data key : List Byte) : Option (List Byte) :=
  match runWords (pseudoWords (.encrypt data key)) s with
  | .next t =>
    let given := t.responses.drop s.responses.length
    if allOk given then some (streamBytes (xorbResponses given data key)) else none
  | .fault _ => none
  | .refused _ => none

end Sys2Proof.Machine
end

