-- ==== Sys2Proof/Machine/Assembler.lean ====
section
/-! DEFINITION. The assembler notation of the spec's examples: one line of text to the command words it stands for (spec/30_encoding.md R79). It is no part of the block; log entry 16 lists its conventions. -/

namespace Sys2Proof.Machine

/-- The double quote that encloses an ASCII string. -/
def doubleQuote : Char := Char.ofNat 34

/-- The single quote that encloses one ASCII character. -/
def singleQuote : Char := Char.ofNat 39

/-- A blank: space or tab. -/
def isBlank (c : Char) : Bool := c.toNat == 32 || c.toNat == 9

/-- The text without the blanks before and after it. -/
def trimBlanks (cs : List Char) : List Char :=
  ((cs.dropWhile isBlank).reverse.dropWhile isBlank).reverse

/-- The value of one digit in a base of at most 16; hexadecimal letters of either case. -/
def digitValue (base : Nat) (c : Char) : Option Nat :=
  let n := c.toNat
  let v := if 48 ≤ n ∧ n ≤ 57 then n - 48
    else if 65 ≤ n ∧ n ≤ 70 then n - 55
    else if 97 ≤ n ∧ n ≤ 102 then n - 87
    else base
  if v < base then some v else none

/-- The value of a string of digits that is not empty. -/
def numberValue (base : Nat) (cs : List Char) : Option Nat :=
  if cs.isEmpty then none
  else cs.foldlM (fun acc c => (digitValue base c).map (fun d => acc * base + d)) 0

/-- A number: `0x` and hexadecimal digits, or decimal digits. -/
def parseNumber (cs : List Char) : Option Nat :=
  match cs with
  | '0' :: 'x' :: ds => numberValue 16 ds
  | ds => numberValue 10 ds

/-- A number that fits a byte. -/
def byteOfNat (n : Nat) : Option Byte := if n < 256 then some (BitVec.ofNat 8 n) else none

/-- One ASCII character as its code. -/
def asciiByte (c : Char) : Option Byte := if c.toNat < 128 then some (BitVec.ofNat 8 c.toNat) else none

/-- An operand byte: `0x4B`, `75` or `'K'`. -/
def parseByte (cs : List Char) : Option Byte :=
  match cs with
  | [a, c, b] =>
    if a = singleQuote ∧ b = singleQuote then asciiByte c else (parseNumber cs).bind byteOfNat
  | _ => (parseNumber cs).bind byteOfNat

/-- The line without its comment: text after `;`, unless the `;` stands inside a string or is itself a quoted character. -/
def stripComment : Bool → List Char → List Char
  | _, [] => []
  | true, c :: cs => c :: stripComment (c != doubleQuote) cs
  | false, c :: cs =>
    if c = ';' then []
    else if c = singleQuote then
      match cs with
      | d :: e :: rest =>
        if e = singleQuote then c :: d :: e :: stripComment false rest
        else c :: stripComment false (d :: e :: rest)
      | rest => c :: stripComment false rest
    else c :: stripComment (c == doubleQuote) cs

/-- Hexadecimal bytes, two digits each, with blanks between. -/
def parseHexBytes : List Char → Option (List Byte)
  | [] => some []
  | c :: cs =>
    if isBlank c then parseHexBytes cs
    else
      match cs with
      | d :: rest => do
        let n ← numberValue 16 [c, d]
        let b ← byteOfNat n
        match rest with
        | [] => some [b]
        | e :: tail => if isBlank e then (parseHexBytes tail).map (fun bs => b :: bs) else none
      | [] => none

/-- A byte sequence and the text after it: a double-quoted ASCII string, or hexadecimal bytes in square brackets. -/
def parseSequence (cs : List Char) : Option (List Byte × List Char) :=
  match cs with
  | [] => none
  | c :: rest =>
    if c = doubleQuote then
      let body := rest.takeWhile (fun d => d != doubleQuote)
      match rest.drop body.length with
      | [] => none
      | _ :: after => (body.mapM asciiByte).map (fun bs => (bs, after))
    else if c = '[' then
      let body := rest.takeWhile (fun d => d != ']')
      match rest.drop body.length with
      | [] => none
      | _ :: after => (parseHexBytes body).map (fun bs => (bs, after))
    else none

/-- One byte sequence and nothing after it. -/
def parseOneSequence (cs : List Char) : Option (List Byte) := do
  let p ← parseSequence cs
  if (trimBlanks p.2).isEmpty then some p.1 else none

/-- Two byte sequences with a comma between. -/
def parseTwoSequences (cs : List Char) : Option (List Byte × List Byte) := do
  let p ← parseSequence cs
  match trimBlanks p.2 with
  | ',' :: rest => do
    let q ← parseOneSequence (trimBlanks rest)
    some (p.1, q)
  | _ => none

/-- A command that takes no operand: the assembler writes `arg = 0x00`. -/
def assembleN (i : Instr) (operand : List Char) : Option (List CmdWord) :=
  if operand.isEmpty then some [encode i] else none

/-- The words of one line: none for a blank line, one for a command, the whole expansion for a pseudo-instruction (R79 to R82).
No value where the line is not of the notation. -/
def assembleLine (line : List Char) : Option (List CmdWord) :=
  let text := trimBlanks (stripComment false line)
  let mnemonic := text.takeWhile (fun c => !isBlank c)
  let operand := trimBlanks (text.drop mnemonic.length)
  match mnemonic with
  | [] => some []
  | ['R', 'S', 'T'] => assembleN .rst operand
  | ['S', 'T', 'A', 'T'] => assembleN .stat operand
  | ['K', 'P', 'U', 'T'] => (parseByte operand).map (fun b => [encode (.kput b)])
  | ['K', 'S', 'A'] => assembleN .ksa operand
  | ['N', 'E', 'X', 'T'] => assembleN .next operand
  | ['X', 'O', 'R', 'B'] => (parseByte operand).map (fun b => [encode (.xorb b)])
  | ['I', 'N', 'I', 'T'] => (parseOneSequence operand).map (fun key => pseudoWords (.init key))
  | ['K', 'E', 'Y', 'S', 'T', 'R', 'E', 'A', 'M'] => (parseNumber operand).map (fun n => pseudoWords (.keystream n))
  | ['E', 'N', 'C', 'R', 'Y', 'P', 'T'] =>
    (parseTwoSequences operand).map (fun p => pseudoWords (.encrypt p.1 p.2))
  | ['D', 'E', 'C', 'R', 'Y', 'P', 'T'] =>
    (parseTwoSequences operand).map (fun p => pseudoWords (.decrypt p.1 p.2))
  | _ => none

end Sys2Proof.Machine
end

