-- ==== Sys2Proof/Machine/Blocks.lean ====
section
/-! DEFINITION. Several independent blocks side by side: the product of machines of one block (spec/60_exceptions.md R187). -/

namespace Sys2Proof.Machine

/-- `NINST` blocks: each has its own state and its own ports, and they share nothing (R187). -/
abbrev Blocks := List State

/-- `n` blocks after reset. The number is the parameter `NINST`, which the spec leaves OPEN (D19). Block `k` draws its
unspecified cursors (R33) from source `k`, so nothing relates the cursors of two blocks after their resets; before the first
reset in a run every block holds the cursors of `State.reset`. Both are DESIGN CHOICE (log entries 4, 5, 12). -/
def resetBlocks (n : Nat) : Blocks := (List.range n).map (fun k => { State.reset with freeSource := k })

/-- The blocks of the default configuration (R5, R187): one. -/
def defaultBlocks : Blocks := resetBlocks Config.ninstDefault

/-- One step of block `k`; no value where there is no such block. Which block moves is the host's choice. -/
def stepBlock (k : Nat) (bs : Blocks) : Option (Host.Outcome Blocks Fault Refusal) :=
  match bs[k]? with
  | none => none
  | some s =>
    match step s with
    | .next t => some (.next (bs.set k t))
    | .fault f => some (.fault f)
    | .refused r => some (.refused r)

end Sys2Proof.Machine
end

