-- ==== Sys2Proof/Safety.lean ====
section
/-! DEFINITION. What the claims speak of: the permutation invariant (spec/10_state.md R21), the invariant of the whole state (R32), the classes of state (spec/43_composite.md R158), and what a run that goes well is (spec/70_reset_and_hazards.md R212). -/

namespace Sys2Proof.Machine

/-- `S` is a bijection on 0 to 255: every index holds a value, and every byte value occurs in exactly one entry (R21). -/
def Memory.IsPerm (m : Memory) : Prop :=
  (∀ a : Byte, (m.read a).isSome) ∧
  ∀ v : Byte, ∃ a : Byte, m.read a = some v ∧ ∀ b : Byte, m.read b = some v → b = a

/-- The key bytes `K[0]` to `K[KLEN - 1]` all hold a value (R26). -/
def KeyHeld (K : Memory) (klen : BitVec 9) : Prop :=
  ∀ n : Nat, n < klen.toNat → (K.read (BitVec.ofNat 8 n)).isSome

/-- The invariant of the whole state (R26, R32). -/
structure Inv (s : State) : Prop where
  /-- `KLEN <= 256` (R26, R32 a). -/
  klen_le : s.klen.toNat ≤ 256
  /-- `CAUSE` is 0 to 4 (R28, R32 b). -/
  cause_le : s.cause.toNat ≤ 4
  /-- `S` is in canonical form. -/
  S_wf : s.S.wf
  /-- `K` is in canonical form. -/
  K_wf : s.K.wf
  /-- Every key byte below `KLEN` has been written (R26). -/
  key_held : KeyHeld s.K s.klen
  /-- With `RDY = 1`, `S` is a bijection (R21, R32 c). -/
  perm : s.rdy = true → s.S.IsPerm

/-- A response of success (R73, R171). -/
def Response.isOk (r : Response) : Prop := r.err = okCode

/-- A run that has not gone wrong: no response had `err != 0` (R212). -/
def RunOk (s : State) : Prop := ∀ r ∈ s.responses, r.isOk

/-- The response with `err = 0` and `data = 0x0000` (R77). -/
def okResponse : Response := ⟨okCode, 0⟩

/-- The response of success that carries the byte `z`: `data = zext_16(z)` (R77). -/
def byteResponse (z : Byte) : Response := ⟨okCode, zext16 z⟩

/-- The host may start a key: the block is not faulted and the key buffer is empty (R80, R151, R207). -/
def CanStartKey (s : State) : Prop := s.cause = 0 ∧ s.klen = 0

/-- The classes of state (R158). -/
inductive LifeClass where
  | empty
  | keying
  | ready
  | readyKeying
  | faulted
  deriving DecidableEq, Repr

/-- The class of a state, read off `STATUS` (R158). -/
def lifeClass (s : State) : LifeClass :=
  if s.cause ≠ 0 then .faulted
  else if s.rdy then (if s.klen = 0 then .ready else .readyKeying)
  else (if s.klen = 0 then .empty else .keying)

/-- The columns of R158's table: where `KPUT` leads from each class that is not full. -/
def classAfterKput : LifeClass → LifeClass
  | .empty => .keying
  | .keying => .keying
  | .ready => .readyKeying
  | .readyKeying => .readyKeying
  | .faulted => .faulted

/-- Where `KSA` leads from each class (R158). -/
def classAfterKsa : LifeClass → LifeClass
  | .empty => .faulted
  | .keying => .ready
  | .ready => .faulted
  | .readyKeying => .ready
  | .faulted => .faulted

/-- Where `NEXT` and `XORB` lead from each class (R158). -/
def classAfterStream : LifeClass → LifeClass
  | .empty => .faulted
  | .keying => .faulted
  | .ready => .ready
  | .readyKeying => .readyKeying
  | .faulted => .faulted

/-- R158's table: the class after a command in a class; `full` says that `KLEN = 256`. -/
def classAfter (full : Bool) (c : LifeClass) : Decoded → LifeClass
  | .command .rst => .empty
  | .command .stat => c
  | .command (.kput _) => if full then .faulted else classAfterKput c
  | .command .ksa => classAfterKsa c
  | .command .next => classAfterStream c
  | .command (.xorb _) => classAfterStream c
  | .illegal _ => .faulted

/-- The memory holds, at every index, the byte the function gives. -/
def Holds (m : Memory) (f : Byte → Byte) : Prop := ∀ a : Byte, m.read a = some (f a)

/-- The bytes of a permutation after `swap(S, a, b)`, as a function (R10). -/
def swapFn (f : Byte → Byte) (a b : Byte) : Byte → Byte :=
  fun x => if x = a then f b else if x = b then f a else f x

/-- The running sum and the bytes of `S` after the first `n` rounds of the key schedule with the expanded key `e`, as R102 writes
them, on functions and not on memories. `e r` is `K[r mod KLEN]` (R104). -/
def ksaFn (e : Nat → Byte) : Nat → Byte × (Byte → Byte)
  | 0 => (0, fun x => x)
  | r + 1 =>
    let f := (ksaFn e r).2
    let t := (ksaFn e r).1 + f (BitVec.ofNat 8 r) + e r
    (t, swapFn f (BitVec.ofNat 8 r) t)

/-- Two states in which the block's observable state is the same (R34): `RDY`, `CAUSE` and `KLEN`, the key bytes below `KLEN`,
and, with `RDY = 1`, the CipherState. -/
structure Agree (s t : State) : Prop where
  rdy : s.rdy = t.rdy
  cause : s.cause = t.cause
  klen : s.klen = t.klen
  key : ∀ n : Nat, n < s.klen.toNat → s.K.read (BitVec.ofNat 8 n) = t.K.read (BitVec.ofNat 8 n)
  cipher : s.rdy = true → s.i = t.i ∧ s.j = t.j ∧ ∀ a : Byte, s.S.read a = t.S.read a

end Sys2Proof.Machine
end

