-- ==== Sys2Proof/Certificates/Slice0/Obligations.lean ====
section
/-! DEFINITION. The statements for the provers, each taken from the numbered rules of spec/. -/

open Sys2Proof Sys2Proof.Machine

/-! ### Encoding -/

/-- Decode and encode agree: a word decodes to a command exactly when it is that command's word (R71, R74, R75). -/
def Obligations.DecodeInvertsEncode : Prop :=
  ∀ (w : CmdWord) (i : Instr), decode w = .command i ↔ w = encode i

/-- The decoder of R75 accepts a word exactly when a row of R74's map covers it, the row is the decoded command's, and no
other row covers it (R74: the rows are disjoint). -/
def Obligations.DecodeFollowsOpcodeMap : Prop :=
  ∀ w : CmdWord,
    (legalWord w = true ↔ ∃ i, decode w = .command i) ∧
    ∀ i, decode w = .command i → ∀ row ∈ opcodeTable, (row.covers w = true ↔ row = i.row)

/-- Words of each family written out in R74 and R79 stand for the commands those rules name. -/
def Obligations.WordsOfTheSpecDecode : Prop :=
  decode 0x0100 = .command .rst ∧ decode 0x0200 = .command .stat ∧
  decode 0x104B = .command (.kput 0x4B) ∧ decode 0x1100 = .command .ksa ∧
  decode 0x2000 = .command .next ∧ decode 0x2150 = .command (.xorb 0x50) ∧
  decode 0x0101 = .illegal (.nonzeroArg 0x01 0x01) ∧ decode 0x0300 = .illegal (.unassignedOp 0x03)

/-- Of the 65536 words, exactly 516 are legal (R75): they are the members of a list of 516 different words. -/
def Obligations.LegalWordsAre516 : Prop :=
  ∃ ws : List CmdWord, ws.length = 516 ∧ ws.Nodup ∧ ∀ w, w ∈ ws ↔ ∃ i, decode w = .command i

/-- Reserved and illegal words (R76): which they are, that 0x0000 and 0xFFFF are among them, and that executing one raises
`Fault(1)` when the block is not faulted and is refused with `err = 5` when it is. The nearest thing to a no-op, `STAT`, changes no state. -/
def Obligations.ReservedWordsFault : Prop :=
  (∀ w : CmdWord, (∃ why, decode w = .illegal why) ↔
    (opField w ≠ 0x01 ∧ opField w ≠ 0x02 ∧ opField w ≠ 0x10 ∧ opField w ≠ 0x11 ∧ opField w ≠ 0x20 ∧ opField w ≠ 0x21) ∨
    ((opField w = 0x01 ∨ opField w = 0x02 ∨ opField w = 0x11 ∨ opField w = 0x20) ∧ argField w ≠ 0)) ∧
  (∃ why, decode 0x0000 = .illegal why) ∧ (∃ why, decode 0xFFFF = .illegal why) ∧
  (∀ (w : CmdWord) (why : IllegalWord) (s : State), decode w = .illegal why →
    execWord w s =
      if s.cause = 0 then .next { s with cause := 1, responses := s.responses ++ [⟨1, 0⟩] }
      else .next { s with responses := s.responses ++ [⟨5, 0⟩] }) ∧
  ∀ s : State, ∃ r, exec .stat s = .next { s with responses := s.responses ++ [r] }

/-! ### The step, the envelope and the response -/

/-- A step runs the decoded command: it takes the host's next event; a command word that decodes to `i` runs `exec i`, and an
illegal word runs the illegal-word operation, on the state in which the word has been taken. A word placed by
`withFetchWord` is that next event. With nothing from the host the machine waits. How events are held and that an empty list of them is
a waiting step are the model's choices (log entries 1 and 9). -/
def Obligations.StepRunsDecodedCommand : Prop :=
  (∀ (s : State) (w : CmdWord) (rest : List HostEvent) (i : Instr),
    s.inputs = .command w :: rest → decode w = .command i → step s = exec i { s with inputs := rest }) ∧
  (∀ (s : State) (w : CmdWord) (rest : List HostEvent) (why : IllegalWord),
    s.inputs = .command w :: rest → decode w = .illegal why → step s = execIllegal { s with inputs := rest }) ∧
  (∀ (s : State) (w : CmdWord), step (s.withFetchWord 16 w.toNat) = execWord w s) ∧
  (∀ s : State, s.inputs = [] → step s = .next s)

/-- The envelope of every command, as R170 writes it; from every state that meets the invariant every word is answered by a next
state with exactly one response more. -/
def Obligations.EnvelopeOfEveryCommand : Prop :=
  (∀ (w : CmdWord) (s : State),
    execWord w s =
      if s.cause ≠ 0 then
        if decode w = .command .rst then execRst s
        else if decode w = .command .stat then execStat s
        else .next { s with responses := s.responses ++ [⟨5, 0⟩] }
      else
        match decode w with
        | .illegal _ => .next { s with cause := 1, responses := s.responses ++ [⟨1, 0⟩] }
        | .command i => exec i s) ∧
  ∀ (w : CmdWord) (s : State), Inv s → ∃ t r, execWord w s = .next t ∧ t.responses = s.responses ++ [r]

/-- The response word is `{err, data}`; in every answer `err` is 0 to 5, and `data` is 0 whenever `err` is not 0 (R73). -/
def Obligations.ResponseFormat : Prop :=
  (∀ r : Response, (responseWord r).extractLsb' 16 4 = r.err ∧ (responseWord r).extractLsb' 0 16 = r.data) ∧
  ∀ (w : CmdWord) (s : State), Inv s →
    ∃ t r, execWord w s = .next t ∧ t.responses = s.responses ++ [r] ∧
      r.err.toNat ≤ 5 ∧ (r.err ≠ 0 → r.data = 0)

/-- The `data` field of a successful response, by command (R77). -/
def Obligations.SuccessDataByCommand : Prop :=
  ∀ (i : Instr) (s t : State) (d : BitVec 16),
    exec i s = .next t → t.responses = s.responses ++ [⟨0, d⟩] →
    match i with
    | .rst => d = 0
    | .stat => d = status s
    | .kput _ => d = 0
    | .ksa => d = 0
    | .next => ∃ z c, prga (cipher s) = some (z, c) ∧ d.extractLsb' 8 8 = 0#8 ∧ d.extractLsb' 0 8 = z
    | .xorb b => ∃ z c, prga (cipher s) = some (z, c) ∧ d.extractLsb' 8 8 = 0#8 ∧ d.extractLsb' 0 8 = z ^^^ b

/-- The host's list of words run word by word is the same as the machine's steps over the presented words (R206, R212). -/
def Obligations.RunOfWordsIsSteps : Prop :=
  ∀ (ws : List CmdWord) (s : State), Host.Core.run core ws.length (presentWords s ws) = runWords ws s

/-- Every command gets its response in one step, from every state that meets the invariant (R206), and the host's next event is
then the one after it. -/
def Obligations.CommandAnsweredInOneStep : Prop :=
  ∀ (s : State) (w : CmdWord) (rest : List HostEvent), Inv s → s.inputs = .command w :: rest →
    ∃ t r, step s = .next t ∧ t.inputs = rest ∧ t.responses = s.responses ++ [r]

/-! ### RST, STAT and STATUS -/

/-- `RST` (R140): word 0x0100; in every state, faulted or not, it answers the reset state of R33 with response `(0, 0x0000)`; a word with
`op = 0x01` and another `arg` faults with code 1 or is refused, and resets nothing. -/
def Obligations.RstGivesResetState : Prop :=
  encode .rst = 0x0100 ∧
  (∀ s : State, ∃ t, exec .rst s = .next t ∧ t.rdy = false ∧ t.cause = 0 ∧ t.klen = 0 ∧
    status t = 0 ∧ flt t = false ∧ Agree t State.reset ∧ t.responses = s.responses ++ [⟨0, 0⟩]) ∧
  ∀ (w : CmdWord) (s : State), opField w = 0x01 → argField w ≠ 0 →
    execWord w s =
      if s.cause = 0 then .next { s with cause := 1, responses := s.responses ++ [⟨1, 0⟩] }
      else .next { s with responses := s.responses ++ [⟨5, 0⟩] }

/-- `STAT` (R141): word 0x0200; in every state, faulted or not, it answers `(0, {CAUSE, FLT, RDY, 0, KLEN})` and changes no state; with
`KLEN = 256` the low 9 bits of `data` are 0x100; a word with `op = 0x02` and another `arg` is illegal. -/
def Obligations.StatReturnsStatus : Prop :=
  encode .stat = 0x0200 ∧
  (∀ s : State, exec .stat s =
    .next { s with responses := s.responses ++
      [⟨0, s.cause ++ BitVec.ofBool (s.cause != 0) ++ BitVec.ofBool s.rdy ++ 0#1 ++ s.klen⟩] }) ∧
  (∀ s : State, s.klen = 256 → (status s).extractLsb' 0 9 = 0x100#9) ∧
  ∀ w : CmdWord, opField w = 0x02 → argField w ≠ 0 → ∃ why, decode w = .illegal why

/-- The fields of `STATUS` (R29), and what it reads after reset, with a three-byte key and no CipherState, and after a key schedule
with no fault. -/
def Obligations.StatusFields : Prop :=
  (∀ s : State,
    (status s).extractLsb' 12 4 = s.cause ∧ (status s).getLsbD 11 = (s.cause != 0) ∧
    (status s).getLsbD 10 = s.rdy ∧ (status s).getLsbD 9 = false ∧ (status s).extractLsb' 0 9 = s.klen) ∧
  status State.reset = 0x0000 ∧
  (∀ s : State, s.cause = 0 → s.rdy = false → s.klen = 3 → status s = 0x0003) ∧
  (∀ s t : State, s.cause = 0 → s.klen ≠ 0 → exec .ksa s = .next t → status t = 0x0400)

/-- The frame of `STAT` and `RST`: `STAT` leaves everything but the responses; `RST` leaves the host's inputs and only appends to
the responses. -/
def Obligations.SystemFrame : Prop :=
  (∀ s t : State, exec .stat s = .next t →
    t.S = s.S ∧ t.i = s.i ∧ t.j = s.j ∧ t.K = s.K ∧ t.klen = s.klen ∧ t.rdy = s.rdy ∧ t.cause = s.cause ∧
    t.inputs = s.inputs ∧ t.freeSource = s.freeSource ∧ t.freeCount = s.freeCount ∧ ∃ r, t.responses = s.responses ++ [r]) ∧
  (∀ s t : State, exec .rst s = .next t → t.inputs = s.inputs ∧ t.freeSource = s.freeSource ∧ ∃ r, t.responses = s.responses ++ [r])

/-! ### KPUT and KSA -/

/-- `KPUT b` (R100): word `0x1000 | b`; not faulted, it answers `Fault(3)` when `KLEN = 256`, and else stores `b` at index
`KLEN[7:0]` of `K`, adds 1 to `KLEN` and responds `(0, 0x0000)`, whatever `RDY` is. -/
def Obligations.KputAppendsKeyByte : Prop :=
  ∀ (b : Byte) (s : State),
    encode (.kput b) = 0x1000 ||| b.setWidth 16 ∧
    (s.cause = 0 → s.klen = 256 →
      exec (.kput b) s = .next { s with cause := 3, responses := s.responses ++ [⟨3, 0⟩] }) ∧
    (s.cause = 0 → s.klen ≠ 256 →
      ∃ K', exec (.kput b) s =
          .next { s with K := K', klen := s.klen + 1, responses := s.responses ++ [⟨0, 0⟩] } ∧
        K'.read (s.klen.setWidth 8) = some b ∧
        ∀ a, a ≠ s.klen.setWidth 8 → K'.read a = s.K.read a)

/-- `KPUT` does not disturb a stream (R101): it leaves `S`, `i`, `j` and `RDY`, and a `NEXT` after it answers as a `NEXT` before it
would have. -/
def Obligations.KputLeavesStreamAlone : Prop :=
  ∀ (b : Byte) (s t u : State), s.cause = 0 → s.klen ≠ 256 →
    exec (.kput b) s = .next t → exec .next s = .next u → s.rdy = true →
    ∃ v r, exec .next t = .next v ∧ u.responses = s.responses ++ [r] ∧ v.responses = t.responses ++ [r] ∧
      cipher v = cipher u ∧ v.klen = t.klen ∧ v.K = t.K

/-- The frame of `KPUT`: the CipherState, `RDY`, the inputs and every byte of `K` but the one at `KLEN[7:0]` stay; `CAUSE` stays but
for `Fault(3)`. -/
def Obligations.KputFrame : Prop :=
  ∀ (b : Byte) (s t : State), exec (.kput b) s = .next t →
    t.S = s.S ∧ t.i = s.i ∧ t.j = s.j ∧ t.rdy = s.rdy ∧ t.inputs = s.inputs ∧ t.freeSource = s.freeSource ∧ t.freeCount = s.freeCount ∧
    (∀ a, a ≠ kputIndex s.klen → t.K.read a = s.K.read a) ∧
    (t.cause = s.cause ∨ (s.cause = 0 ∧ s.klen = 256 ∧ t.cause = 3 ∧ t.K = s.K ∧ t.klen = s.klen)) ∧
    (s.cause ≠ 0 → t.K = s.K ∧ t.klen = s.klen) ∧ ∃ r, t.responses = s.responses ++ [r]

/-- `KSA` (R102): word 0x1100; not faulted, `KLEN = 0` answers `Fault(2)`; with a key held, it answers the state whose `S` is
what the 256 rounds on the identity permutation give, with `i = j = 0`, `RDY = 1`, `KLEN = 0` and response `(0, 0x0000)`. That the
running sum starts at 0 and the rounds ascend is general knowledge by the spec's own mark (log entries 6 and 7). -/
def Obligations.KsaBuildsCipherState : Prop :=
  encode .ksa = 0x1100 ∧
  (∀ s : State, s.cause = 0 → s.klen = 0 →
    exec .ksa s = .next { s with cause := 2, responses := s.responses ++ [⟨2, 0⟩] }) ∧
  ∀ (s : State) (key : Nat → Byte), s.cause = 0 → s.klen ≠ 0 →
    (∀ n, n < s.klen.toNat → s.K.read (BitVec.ofNat 8 n) = some (key n)) →
    ∃ S', exec .ksa s =
        .next { s with S := S', i := 0, j := 0, rdy := true, klen := 0, responses := s.responses ++ [⟨0, 0⟩] } ∧
      Holds S' (ksaFn (fun r => key (r % s.klen.toNat)) 256).2

/-- The CipherState that the key schedule builds depends on the key only through the bytes `K[r mod KLEN]` (R104). -/
def Obligations.KsaDependsOnExpandedKeyOnly : Prop :=
  ∀ (s t : State), s.cause = 0 → t.cause = 0 → s.klen ≠ 0 → t.klen ≠ 0 →
    (∀ r, r < 256 → s.K.read (keyIndex r s.klen) = t.K.read (keyIndex r t.klen)) →
    ∀ s', exec .ksa s = .next s' → ∃ t', exec .ksa t = .next t' ∧ cipher t' = cipher s'

/-- `KSA` is deterministic and forgets (R105): its CipherState does not depend on the earlier `S`, `i`, `j`, `RDY`, and `S` is a
bijection after every successful `KSA`. -/
def Obligations.KsaForgetsEarlierState : Prop :=
  ∀ (s t s' t' : State), s.cause = 0 → t.cause = 0 → s.klen ≠ 0 → t.klen = s.klen →
    (∀ n, n < s.klen.toNat → t.K.read (BitVec.ofNat 8 n) = s.K.read (BitVec.ofNat 8 n)) →
    exec .ksa s = .next s' → exec .ksa t = .next t' → cipher t' = cipher s' ∧ s'.S.IsPerm

/-- The frame of `KSA`: `K`, the inputs and the model's free-value fields stay; a `KSA` that faults or is refused also leaves the CipherState,
`RDY` and `KLEN`; `CAUSE` stays but for `Fault(2)`. -/
def Obligations.KsaFrame : Prop :=
  ∀ (s t : State), exec .ksa s = .next t →
    t.K = s.K ∧ t.inputs = s.inputs ∧ t.freeSource = s.freeSource ∧ t.freeCount = s.freeCount ∧
    (t.cause = s.cause ∨ (s.cause = 0 ∧ s.klen = 0 ∧ t.cause = 2)) ∧
    (s.cause ≠ 0 ∨ s.klen = 0 → t.S = s.S ∧ t.i = s.i ∧ t.j = s.j ∧ t.rdy = s.rdy ∧ t.klen = s.klen) ∧
    ∃ r, t.responses = s.responses ++ [r]

/-! ### NEXT and XORB -/

/-- `NEXT` (R121, with the PRGA step of R120): word 0x2000; not faulted, `RDY = 0` answers `Fault(4)` with no step; with `RDY = 1` and
`S` holding the bytes `f`, it answers the state after one PRGA step and the response `(0, zext_16(z))`. -/
def Obligations.NextStepsStream : Prop :=
  encode .next = 0x2000 ∧
  (∀ s : State, s.cause = 0 → s.rdy = false →
    exec .next s = .next { s with cause := 4, responses := s.responses ++ [⟨4, 0⟩] }) ∧
  ∀ (s : State) (f : Byte → Byte), s.cause = 0 → s.rdy = true → Holds s.S f →
    let i := s.i + 1
    let j := s.j + f i
    let g := swapFn f i j
    ∃ S', exec .next s =
        .next { s with S := S', i := i, j := j,
                       responses := s.responses ++ [⟨0, (g (g i + g j)).setWidth 16⟩] } ∧
      Holds S' g

/-- `XORB b` (R122, with the PRGA step of R120): word `0x2100 | b`; not faulted, `RDY = 0` answers `Fault(4)` with no step; with `RDY = 1`
and `S` holding the bytes `f`, it answers the state after one PRGA step, the same state for every `b` and the same as after `NEXT`, and the
response `(0, zext_16(z ^ b))`; so `XORB 0x00` answers as `NEXT` does, and `XORB 0xFF` gives the complement. -/
def Obligations.XorbStepsStream : Prop :=
  (∀ b : Byte, encode (.xorb b) = 0x2100 ||| b.setWidth 16) ∧
  (∀ (b : Byte) (s : State), s.cause = 0 → s.rdy = false →
    exec (.xorb b) s = .next { s with cause := 4, responses := s.responses ++ [⟨4, 0⟩] }) ∧
  (∀ (s : State) (f : Byte → Byte), s.cause = 0 → s.rdy = true → Holds s.S f →
    let i := s.i + 1
    let j := s.j + f i
    let g := swapFn f i j
    let z := g (g i + g j)
    ∃ S', Holds S' g ∧
      exec .next s =
        .next { s with S := S', i := i, j := j, responses := s.responses ++ [⟨0, z.setWidth 16⟩] } ∧
      ∀ b : Byte, exec (.xorb b) s =
        .next { s with S := S', i := i, j := j, responses := s.responses ++ [⟨0, (z ^^^ b).setWidth 16⟩] }) ∧
  ∀ s : State, exec (.xorb 0x00) s = exec .next s ∧
    ∀ (t : State) (z : Byte), exec .next s = .next t → t.responses = s.responses ++ [⟨0, z.setWidth 16⟩] →
      exec (.xorb 0xFF) s = .next { t with responses := s.responses ++ [⟨0, (~~~z).setWidth 16⟩] }

/-- The frame of `NEXT` and `XORB`: `K`, `KLEN`, `RDY`, the inputs and every byte of `S` but the two the step swaps stay; `CAUSE` stays but
for `Fault(4)`; a command that faults or is refused also leaves the CipherState. -/
def Obligations.StreamFrame : Prop :=
  ∀ (i : Instr) (s t : State), (i = .next ∨ ∃ b, i = .xorb b) → exec i s = .next t →
    t.K = s.K ∧ t.klen = s.klen ∧ t.rdy = s.rdy ∧ t.inputs = s.inputs ∧ t.freeSource = s.freeSource ∧ t.freeCount = s.freeCount ∧
    (t.cause = s.cause ∨ (s.cause = 0 ∧ s.rdy = false ∧ t.cause = 4)) ∧
    (s.cause ≠ 0 ∨ s.rdy = false → t.S = s.S ∧ t.i = s.i ∧ t.j = s.j) ∧
    (∀ a si, s.S.read (nextI s.i) = some si → a ≠ nextI s.i → a ≠ nextJ s.j si → t.S.read a = s.S.read a) ∧
    ∃ r, t.responses = s.responses ++ [r]

/-- The cursor `i` counts the PRGA steps modulo 256 (R22, R124): after `n` steps it has advanced by `n`, with no flag and no fault. -/
def Obligations.CursorCountsSteps : Prop :=
  ∀ (n : Nat) (s : State), s.cause = 0 → s.rdy = true → s.S.IsPerm →
    ∃ t, runWords (pseudoWords (.keystream n)) s = .next t ∧ t.i = s.i + BitVec.ofNat 8 n ∧
      t.cause = 0 ∧ t.rdy = true

/-! ### Memory -/

/-- Accesses to `S` and `K` (R54): a read after a write to the same index gives the byte written, a write changes only the byte it
names, and a swap exchanges two bytes exactly and changes nothing when its indices are equal. -/
def Obligations.MemoryAccess : Prop :=
  (∀ (m : Memory) (a v : Byte), (m.write a v).read a = some v) ∧
  (∀ (m : Memory) (a b v : Byte), b ≠ a → (m.write a v).read b = m.read b) ∧
  (∀ (m : Memory) (a b u v : Byte), m.read a = some u → m.read b = some v →
    ∃ m', m.swap a b = some m' ∧ m'.read a = some v ∧ m'.read b = some u ∧
      (∀ c, c ≠ a → c ≠ b → m'.read c = m.read c) ∧ (a = b → ∀ c, m'.read c = m.read c))

/-! ### Faults and reset -/

/-- Fault entry (R173): each of the four faults latches its code in `CAUSE`, responds `(code, 0x0000)` and changes no other state;
afterwards `FLT = 1` and `STATUS[15:12] = code`. -/
def Obligations.FaultEntryIsPrecise : Prop :=
  ∀ (s : State) (w : CmdWord) (code : ErrCode), s.cause = 0 →
    (((∃ why, decode w = .illegal why) ∧ code = 1) ∨ (decode w = .command .ksa ∧ s.klen = 0 ∧ code = 2) ∨
      ((∃ b, decode w = .command (.kput b)) ∧ s.klen = 256 ∧ code = 3) ∨
      ((decode w = .command .next ∨ ∃ b, decode w = .command (.xorb b)) ∧ s.rdy = false ∧ code = 4)) →
    ∃ t, execWord w s = .next t ∧ t = { s with cause := code, responses := s.responses ++ [⟨code, 0⟩] } ∧
      flt t = true ∧ (status t).extractLsb' 12 4 = code

/-- Code 1 (R172): raised for every word outside the six rows of R74 when the block is not faulted; no command is executed. -/
def Obligations.IllegalWordRaisesCodeOne : Prop :=
  ∀ (w : CmdWord) (s : State), s.cause = 0 → (∀ row ∈ opcodeTable, w &&& row.mask ≠ row.pattern) →
    execWord w s = .next { s with cause := 1, responses := s.responses ++ [⟨1, 0⟩] }

/-- Refusal while faulted (R175): every word except the legal `RST` and the legal `STAT` gets `(5, 0x0000)` and changes no state. -/
def Obligations.RefusedWhileFaulted : Prop :=
  ∀ (w : CmdWord) (s : State), s.cause ≠ 0 → w ≠ 0x0100 → w ≠ 0x0200 →
    execWord w s = .next { s with responses := s.responses ++ [⟨5, 0⟩] }

/-- Faults do not nest (R178): through any words that do not include `RST`, a faulted block keeps its first cause and its whole state, and
every word but `STAT` is refused with code 5. -/
def Obligations.FirstCauseIsKept : Prop :=
  ∀ (ws : List CmdWord) (s : State), s.cause ≠ 0 → (0x0100 : CmdWord) ∉ ws →
    let given : List Response := ws.map (fun w => if w = 0x0200 then ⟨0, status s⟩ else ⟨5, 0⟩)
    runWords ws s = .next { s with responses := s.responses ++ given }

/-- The only exits from the faulted state are the command `RST` and hardware reset, and both give the reset state (R177). -/
def Obligations.OnlyResetLeavesFault : Prop :=
  (∀ (e : HostEvent) (s t : State), s.cause ≠ 0 → execEvent e s = .next t → t.cause = 0 →
    (e = .command 0x0100 ∨ e = .reset ∨ ∃ w, e = .resetDuring w) ∧ Agree t State.reset) ∧
  (∀ (e : HostEvent) (s : State), (e = .command 0x0100 ∨ e = .reset ∨ ∃ w, e = .resetDuring w) →
    ∃ t, execEvent e s = .next t ∧ t.cause = 0 ∧ Agree t State.reset)

/-- Hardware reset (R200), between commands or in the middle of one: the reset state of R33, no response, and the abandoned command
is of no account. -/
def Obligations.HardwareResetWins : Prop :=
  ∀ (e : HostEvent) (s : State) (rest : List HostEvent), (e = .reset ∨ ∃ w, e = .resetDuring w) → s.inputs = e :: rest →
    ∃ t, step s = .next t ∧ t.rdy = false ∧ t.cause = 0 ∧ t.klen = 0 ∧ Agree t State.reset ∧
      t.responses = s.responses ∧ t.inputs = rest

/-- The flag `RDY` (R27): 0 after reset, set by a successful `KSA`, cleared by `RST` and hardware reset, written by no other command, not
cleared by a fault; `NEXT` and `XORB` raise `Fault(4)` when it is 0. -/
def Obligations.ReadyFlagRule : Prop :=
  State.reset.rdy = false ∧
  (∀ (s t : State), exec .ksa s = .next t → s.cause = 0 → s.klen ≠ 0 → t.rdy = true) ∧
  (∀ (s t : State), exec .rst s = .next t → t.rdy = false) ∧
  (∀ (e : HostEvent) (s t : State), (e = .reset ∨ ∃ w, e = .resetDuring w) → execEvent e s = .next t → t.rdy = false) ∧
  (∀ (w : CmdWord) (s t : State), execWord w s = .next t → decode w ≠ .command .rst →
    ¬ (decode w = .command .ksa ∧ s.cause = 0 ∧ s.klen ≠ 0) → t.rdy = s.rdy) ∧
  (∀ (i : Instr) (s : State), (i = .next ∨ ∃ b, i = .xorb b) → s.cause = 0 → s.rdy = false →
    exec i s = .next { s with cause := 4, responses := s.responses ++ [⟨4, 0⟩] })

/-- The latch `CAUSE` (R28): 0 after reset; a fault writes its code, 1 to 4, which is also its response; while it is not 0 no command
changes it except `RST`, which clears it, as does hardware reset; `FLT` is 1 exactly when it is not 0. -/
def Obligations.CauseLatchRule : Prop :=
  State.reset.cause = 0 ∧
  (∀ (w : CmdWord) (s t : State), execWord w s = .next t → s.cause = 0 → t.cause ≠ 0 →
    t.cause.toNat ≤ 4 ∧ t.responses = s.responses ++ [⟨t.cause, 0⟩]) ∧
  (∀ (w : CmdWord) (s t : State), execWord w s = .next t → s.cause ≠ 0 → decode w ≠ .command .rst → t.cause = s.cause) ∧
  (∀ (s t : State), exec .rst s = .next t → t.cause = 0) ∧
  (∀ (e : HostEvent) (s t : State), (e = .reset ∨ ∃ w, e = .resetDuring w) → execEvent e s = .next t → t.cause = 0) ∧
  (∀ s : State, flt s = true ↔ s.cause ≠ 0)

/-- What the first command after reset does (R204). -/
def Obligations.FirstCommandsAfterReset : Prop :=
  (∃ t, exec .stat State.reset = .next t ∧ t.responses = [⟨0, 0⟩]) ∧
  (∃ t, exec .next State.reset = .next t ∧ t.cause = 4 ∧ t.responses = [⟨4, 0⟩]) ∧
  (∀ b, ∃ t, exec (.xorb b) State.reset = .next t ∧ t.cause = 4 ∧ t.responses = [⟨4, 0⟩]) ∧
  (∃ t, exec .ksa State.reset = .next t ∧ t.cause = 2 ∧ t.responses = [⟨2, 0⟩]) ∧
  (∀ b, ∃ t, exec (.kput b) State.reset = .next t ∧ t.cause = 0 ∧ t.klen = 1 ∧ t.responses = [⟨0, 0⟩]) ∧
  (∃ t, exec .rst State.reset = .next t ∧ Agree t State.reset ∧ t.responses = [⟨0, 0⟩]) ∧
  (∀ w, (∃ why, decode w = .illegal why) → ∃ t, execWord w State.reset = .next t ∧ t.cause = 1 ∧ t.responses = [⟨1, 0⟩])

/-! ### Invariants and whole-machine rules -/

/-- The invariant holds at reset. -/
def Obligations.ResetMeetsInvariant : Prop := Inv State.reset

/-- Every step keeps the invariant: `KLEN <= 256`, `CAUSE` 0 to 4, both memories canonical, the key bytes held, and with `RDY = 1` the
permutation (R21, R26, R32, R157). -/
def Obligations.StepKeepsInvariant : Prop :=
  ∀ s t : State, Inv s → step s = .next t → Inv t

/-- From every state that meets the invariant the machine takes a step: it neither stops with a fault nor refuses (R170: the step is
total; R34, R53: no rule reads a byte that holds no value). -/
def Obligations.InvariantStepNeverStops : Prop :=
  ∀ s : State, Inv s → ∃ t, step s = .next t

/-- In every state reached from reset by any events of the host, R32's five clauses hold. -/
def Obligations.ReachableStateRule : Prop :=
  ∀ (events : List HostEvent) (n : Nat) (t : State),
    Host.Core.run core n { State.reset with inputs := events } = .next t →
    t.klen.toNat ≤ 256 ∧ (t.cause = 0 ∨ t.cause = 1 ∨ t.cause = 2 ∨ t.cause = 3 ∨ t.cause = 4) ∧
    (t.rdy = true → t.S.IsPerm) ∧ (status t).getLsbD 9 = false ∧
    ((status t).getLsbD 11 = true ↔ (status t).extractLsb' 12 4 ≠ 0#4)

/-- The life of a block (R158): from every state that meets the invariant, every word answers a next state in the class the table gives. -/
def Obligations.LifeClassTable : Prop :=
  ∀ (w : CmdWord) (s : State), Inv s →
    ∃ t, execWord w s = .next t ∧ lifeClass t = classAfter (s.klen == 256) (lifeClass s) (decode w)

/-- No behaviour depends on the unspecified values (R34): two states that agree on what the rules can read give the same response to
every word and agree afterwards. -/
def Obligations.UnspecifiedValuesUnobservable : Prop :=
  ∀ (w : CmdWord) (s t s' : State), Agree s t → execWord w s = .next s' →
    ∃ t' r, execWord w t = .next t' ∧ s'.responses = s.responses ++ [r] ∧ t'.responses = t.responses ++ [r] ∧
      Agree s' t'

/-- Blocks side by side share nothing (R187): a step of block `k` is the step of the machine of one block on it and leaves every other
block, and steps of two different blocks commute. -/
def Obligations.BlocksAreIndependent : Prop :=
  (∀ (k : Nat) (bs cs : Blocks), stepBlock k bs = some (.next cs) →
    ∃ s t, bs[k]? = some s ∧ step s = .next t ∧ cs[k]? = some t ∧ cs.length = bs.length ∧
      ∀ m, m ≠ k → cs[m]? = bs[m]?) ∧
  (∀ (k m : Nat) (bs cs ds : Blocks), k ≠ m → stepBlock k bs = some (.next cs) → stepBlock m cs = some (.next ds) →
    ∃ es, stepBlock m bs = some (.next es) ∧ stepBlock k es = some (.next ds))

/-! ### Composite operations -/

/-- `INIT key` with 1 to 256 bytes (R151): `L + 1` responses `(0, 0x0000)`, the CipherState `ksa(key)`, `STATUS = 0x0400`. -/
def Obligations.InitBuildsKeyState : Prop :=
  ∀ (key : List Byte) (s : State), CanStartKey s → 1 ≤ key.length → key.length ≤ 256 →
    ∃ c t, ksaOf key = some c ∧ runWords (pseudoWords (.init key)) s = .next t ∧
      t.responses = s.responses ++ List.replicate (key.length + 1) okResponse ∧
      cipher t = c ∧ c.i = 0 ∧ c.j = 0 ∧ t.rdy = true ∧ t.klen = 0 ∧ t.cause = 0 ∧ status t = 0x0400

/-- `INIT` with a bad key length (R151): the empty key answers `(2, 0x0000)` and changes nothing but `CAUSE`; a key of more than 256 bytes
loads 256 bytes, faults with code 3, has the rest of its words refused, and leaves the CipherState. -/
def Obligations.InitRejectsBadLength : Prop :=
  (∀ s : State, CanStartKey s →
    runWords (pseudoWords (.init [])) s = .next { s with cause := 2, responses := s.responses ++ [⟨2, 0⟩] }) ∧
  (∀ (key : List Byte) (s : State), CanStartKey s → 256 < key.length →
    ∃ t, runWords (pseudoWords (.init key)) s = .next t ∧ t.cause = 3 ∧ t.klen = 256 ∧
      cipher t = cipher s ∧ t.rdy = s.rdy ∧
      t.responses = s.responses ++ List.replicate 256 okResponse ++ [⟨3, 0⟩] ++
        List.replicate (key.length - 256) ⟨5, 0⟩)

/-- Key bytes left in the buffer become a prefix of the next key (R151, R207). -/
def Obligations.LeftoverKeyBytesAreUsed : Prop :=
  ∀ (old key : List Byte) (s : State), s.cause = 0 → s.klen = BitVec.ofNat 9 old.length →
    1 ≤ (old ++ key).length → (old ++ key).length ≤ 256 →
    (∀ n b, old[n]? = some b → s.K.read (BitVec.ofNat 8 n) = some b) →
    ∃ c t, ksaOf (old ++ key) = some c ∧ runWords (pseudoWords (.init key)) s = .next t ∧ cipher t = c ∧
      t.rdy = true ∧ t.cause = 0

/-- `KEYSTREAM n` at stream position `p` of `key` (R152): the responses carry `Z_key[p+1]` to `Z_key[p+n]`, and the position becomes `p + n`. -/
def Obligations.KeystreamGivesNextBytes : Prop :=
  ∀ (key zs : List Byte) (p n : Nat) (c : CipherState) (s : State),
    1 ≤ key.length → key.length ≤ 256 → ksaOf key = some c → keystream p c = some (zs, cipher s) →
    s.cause = 0 → s.rdy = true →
    ∃ t out, runWords (pseudoWords (.keystream n)) s = .next t ∧
      keystream (p + n) c = some (zs ++ out, cipher t) ∧ out.length = n ∧
      (∀ m, m < n → out[m]? = keystreamByte key (p + m + 1)) ∧
      t.responses = s.responses ++ out.map (fun z => ⟨0, z.setWidth 16⟩)

/-- `KEYSTREAM n` with `RDY = 0` and `n >= 1` (R152): the first response is `(4, 0x0000)`, the others `(5, 0x0000)`. -/
def Obligations.KeystreamNotReady : Prop :=
  ∀ (n : Nat) (s : State), s.cause = 0 → s.rdy = false →
    runWords (pseudoWords (.keystream (n + 1))) s =
      .next { s with cause := 4, responses := s.responses ++ ⟨4, 0⟩ :: List.replicate n ⟨5, 0⟩ }

/-- `ENCRYPT data, key` (R153): every response has `err = 0`, the m-th `XORB` response carries `data[m] ^ Z_key[m + 1]`, and the block
ends in the reset state; the result has the length of `data`. -/
def Obligations.EncryptXorsKeystream : Prop :=
  ∀ (data key : List Byte) (s : State), CanStartKey s → 1 ≤ key.length → key.length ≤ 256 →
    ∃ c zs c' t, ksaOf key = some c ∧ keystream data.length c = some (zs, c') ∧
      (∀ m, m < data.length → zs[m]? = keystreamByte key (m + 1)) ∧
      runWords (pseudoWords (.encrypt data key)) s = .next t ∧
      t.responses = s.responses ++ (List.replicate (key.length + 1) ⟨0, 0⟩ ++
        (List.zipWith (fun d z => d ^^^ z) data zs).map (fun x => ⟨0, x.setWidth 16⟩) ++ [⟨0, 0⟩]) ∧
      Agree t State.reset ∧
      encryptResult s data key = some (List.zipWith (fun d z => d ^^^ z) data zs)

/-- `ENCRYPT` with the empty key (R153): the `KSA` faults with code 2, every `XORB` is refused and yields no output byte, the final
`RST` clears the fault. That the host must use no `data` field of the run is R153's word; that the model says this as a run with no
result, also with `M = 0`, is its deduction (log entry 18, DEDUCED). -/
def Obligations.EncryptWithEmptyKey : Prop :=
  ∀ (data : List Byte) (s : State), CanStartKey s →
    ∃ t, runWords (pseudoWords (.encrypt data [])) s = .next t ∧ Agree t State.reset ∧
      t.responses = s.responses ++ (⟨2, 0⟩ :: List.replicate data.length ⟨5, 0⟩ ++ [⟨0, 0⟩]) ∧
      xorbResponses (t.responses.drop s.responses.length) data [] = List.replicate data.length ⟨5, 0⟩ ∧
      streamBytes (xorbResponses (t.responses.drop s.responses.length) data []) = [] ∧
      encryptResult s data [] = none

/-- Involution (R154): `ENCRYPT (ENCRYPT P, key), key = P` for every key of 1 to 256 bytes, every `P`, and whatever the block did before
each run. `DECRYPT` is `ENCRYPT`. -/
def Obligations.EncryptTwiceGivesPlaintext : Prop :=
  (∀ data key : List Byte, pseudoWords (.decrypt data key) = pseudoWords (.encrypt data key)) ∧
  ∀ (data key : List Byte) (s u : State), CanStartKey s → CanStartKey u → 1 ≤ key.length → key.length ≤ 256 →
    ∃ out, encryptResult s data key = some out ∧ out.length = data.length ∧
      encryptResult u out key = some data

/-- Determinism (R155): `INIT key; KEYSTREAM n` gives the same responses in any two states in which a key can be started. -/
def Obligations.SameKeySameKeystream : Prop :=
  ∀ (key : List Byte) (n : Nat) (s u : State), CanStartKey s → CanStartKey u → 1 ≤ key.length → key.length ≤ 256 →
    ∃ s' u' rs, runWords (pseudoWords (.init key) ++ pseudoWords (.keystream n)) s = .next s' ∧
      runWords (pseudoWords (.init key) ++ pseudoWords (.keystream n)) u = .next u' ∧
      s'.responses = s.responses ++ rs ∧ u'.responses = u.responses ++ rs

/-- The keystream does not depend on the data (R156): in any sequence of words, replacing one `XORB b` by `NEXT` or by another `XORB`
changes that one response and nothing else. -/
def Obligations.KeystreamIgnoresData : Prop :=
  ∀ (before after : List CmdWord) (b : Byte) (i : Instr) (s t : State), (i = .next ∨ ∃ b', i = .xorb b') →
    runWords (before ++ encode (.xorb b) :: after) s = .next t →
    ∃ r, runWords (before ++ encode i :: after) s =
      .next { t with responses := t.responses.set (s.responses.length + before.length) r }

/-- `ENCRYPT` with a key of more than 256 bytes: the 257th `KPUT` faults with code 3 and every later word but the final `RST` is refused
(R151 and R175 on the words of R82). The last clause, that the run has no result, is the model's own deduction and no rule's words:
R82 calls the `M` low bytes the result and does not except a run that goes wrong; the model carries R153's word on the empty key and
R208's on `err != 0` over to the long key (log entry 18, DEDUCED). -/
def Obligations.EncryptWithLongKey : Prop :=
  ∀ (data key : List Byte) (s : State), CanStartKey s → 256 < key.length →
    ∃ t, runWords (pseudoWords (.encrypt data key)) s = .next t ∧ Agree t State.reset ∧
      t.responses = s.responses ++ (List.replicate 256 ⟨0, 0⟩ ++ [⟨3, 0⟩] ++
        List.replicate (key.length - 256 + data.length) ⟨5, 0⟩ ++ [⟨0, 0⟩]) ∧
      encryptResult s data key = none
end

