-- ==== Sys2Proof/Laws/Encoding.lean ====
section
/-! SUPPORT. The fields of a command word and the word that has them: what a proof about decoding uses and never unfolds (spec/30_encoding.md R71). -/

namespace Sys2Proof

theorem extractHigh_append {n m : Nat} (x : BitVec n) (y : BitVec m) : (x ++ y).extractLsb' m n = x := by
  ext k hk
  simp [BitVec.getLsbD_append, BitVec.getLsbD_eq_getElem hk]

theorem extractLow_append {n m : Nat} (x : BitVec n) (y : BitVec m) : (x ++ y).extractLsb' 0 m = y := by
  ext k hk
  simp [BitVec.getLsbD_append, hk]

theorem and_append {n m : Nat} (x x' : BitVec n) (y y' : BitVec m) :
    (x ++ y) &&& (x' ++ y') = (x &&& x') ++ (y &&& y') := by
  ext k hk
  rw [BitVec.getElem_and, BitVec.getElem_append, BitVec.getElem_append, BitVec.getElem_append]
  split <;> simp

@[simp] theorem opField_append (op arg : Byte) : opField (op ++ arg) = op := extractHigh_append op arg

@[simp] theorem argField_append (op arg : Byte) : argField (op ++ arg) = arg := extractLow_append op arg

/-- A word is its two fields. -/
theorem opField_append_argField (w : CmdWord) : opField w ++ argField w = w := by
  unfold opField argField
  ext k hk
  simp only [BitVec.getElem_append, BitVec.getElem_extractLsb']
  split
  · simp [BitVec.getLsbD_eq_getElem hk]
  · rw [show 8 + (k - 8) = k by omega]
    simp [BitVec.getLsbD_eq_getElem hk]

/-- Two words are equal exactly when their fields are. -/
theorem word_ext_iff (w w' : CmdWord) : w = w' ↔ opField w = opField w' ∧ argField w = argField w' := by
  refine ⟨fun h => h ▸ ⟨rfl, rfl⟩, fun h => ?_⟩
  rw [← opField_append_argField w, ← opField_append_argField w', h.1, h.2]

@[simp] theorem tableWord_toNat (w : CmdWord) : tableWord 16 w.toNat = w := by
  unfold tableWord
  rw [Nat.mod_eq_of_lt w.isLt]
  simp

/-- A word decodes to a command or to ILLEGAL. -/
theorem decode_cases (w : CmdWord) : (∃ i, decode w = .command i) ∨ ∃ why, decode w = .illegal why := by
  cases h : decode w with
  | command i => exact .inl ⟨i, rfl⟩
  | illegal why => exact .inr ⟨why, rfl⟩

end Sys2Proof
end

