-- ==== Sys2Proof/Laws/Memory.lean ====
section
/-! SUPPORT. The laws of the byte memories: read after write, the canonical form, swap, and the permutation invariant (spec/20_memory.md R54, spec/43_composite.md R157). -/

namespace Sys2Proof.Machine

/-! ### Read after write -/

@[simp] theorem Memory.read_nil (a : Byte) : Memory.read [] a = none := rfl

@[simp] theorem Memory.read_write_same (m : Memory) (a v : Byte) : (m.write a v).read a = some v := by
  induction m with
  | nil => simp [Memory.write, Memory.read]
  | cons x m ih =>
    obtain ⟨n, u⟩ := x
    by_cases h1 : a.toNat < n
    · simp [Memory.write, Memory.read, h1]
    · by_cases h2 : n = a.toNat
      · simp [Memory.write, Memory.read, h2]
      · simp [Memory.write, Memory.read, h1, h2, ih]

theorem Memory.read_write_ne (m : Memory) {a b : Byte} (v : Byte) (h : b ≠ a) :
    (m.write a v).read b = m.read b := by
  have hne : a.toNat ≠ b.toNat := fun e => h (BitVec.eq_of_toNat_eq e.symm)
  induction m with
  | nil => simp [Memory.write, Memory.read, hne]
  | cons x m ih =>
    obtain ⟨n, u⟩ := x
    by_cases h1 : a.toNat < n
    · simp [Memory.write, Memory.read, h1, hne]
    · by_cases h2 : n = a.toNat
      · simp [Memory.write, Memory.read, h2, hne]
      · simp [Memory.write, Memory.read, h1, h2, ih]

theorem Memory.read_write (m : Memory) (a b v : Byte) :
    (m.write a v).read b = if b = a then some v else m.read b := by
  by_cases h : b = a
  · simp [h]
  · simp [h, Memory.read_write_ne m v h]

/-! ### The canonical form -/

theorem Memory.wf_nil : Memory.wf [] := by simp [Memory.wf]

theorem Memory.mem_write {m : Memory} {a v : Byte} {x : Host.Cell} (h : x ∈ m.write a v) :
    x = (a.toNat, v) ∨ x ∈ m := by
  induction m with
  | nil => simpa [Memory.write] using h
  | cons y m ih =>
    obtain ⟨n, u⟩ := y
    simp only [Memory.write] at h
    split at h
    · simpa using h
    · split at h
      · rcases List.mem_cons.1 h with h | h
        · exact .inl h
        · exact .inr (List.mem_cons_of_mem _ h)
      · rcases List.mem_cons.1 h with h | h
        · exact .inr (h ▸ List.mem_cons_self)
        · exact (ih h).imp id (List.mem_cons_of_mem _)

/-- A write keeps the canonical form. -/
theorem Memory.wf_write {m : Memory} (a v : Byte) (h : m.wf) : (m.write a v).wf := by
  refine ⟨?_, fun x hx => ?_⟩
  · have hp := h.1
    clear h
    induction m with
    | nil => simp [Memory.write]
    | cons y m ih =>
      obtain ⟨n, u⟩ := y
      rw [List.pairwise_cons] at hp
      simp only [Memory.write]
      split
      · rename_i h1
        refine List.pairwise_cons.2 ⟨fun x hx => ?_, List.pairwise_cons.2 hp⟩
        rcases List.mem_cons.1 hx with rfl | hx
        · exact h1
        · exact Nat.lt_trans h1 (hp.1 x hx)
      · split
        · rename_i h2
          exact List.pairwise_cons.2 ⟨fun x hx => h2 ▸ hp.1 x hx, hp.2⟩
        · refine List.pairwise_cons.2 ⟨fun x hx => ?_, ih hp.2⟩
          rcases Memory.mem_write hx with rfl | hx
          · simp only
            omega
          · exact hp.1 x hx
  · rcases Memory.mem_write hx with rfl | hx
    · exact a.isLt
    · exact h.2 x hx

/-! ### Swap -/

/-- Everything a swap can do: both bytes hold values, and the result is the two writes (R10). -/
theorem Memory.swap_eq_some {m m' : Memory} {a b : Byte} :
    m.swap a b = some m' ↔
      ∃ u v, m.read a = some u ∧ m.read b = some v ∧ m' = (m.write a v).write b u := by
  constructor
  · intro h
    simp only [Memory.swap, Option.bind_eq_bind, Option.bind_eq_some_iff, Option.pure_def, Option.some.injEq] at h
    obtain ⟨u, hu, v, hv, rfl⟩ := h
    exact ⟨u, v, hu, hv, rfl⟩
  · rintro ⟨u, v, hu, hv, rfl⟩
    simp [Memory.swap, hu, hv]

theorem Memory.wf_swap {m m' : Memory} {a b : Byte} (h : m.wf) (hs : m.swap a b = some m') : m'.wf := by
  obtain ⟨u, v, -, -, rfl⟩ := Memory.swap_eq_some.1 hs
  exact Memory.wf_write _ _ (Memory.wf_write _ _ h)

theorem Memory.read_swap_ne {m m' : Memory} {a b c : Byte} (hs : m.swap a b = some m') (ha : c ≠ a) (hb : c ≠ b) :
    m'.read c = m.read c := by
  obtain ⟨u, v, -, -, rfl⟩ := Memory.swap_eq_some.1 hs
  rw [Memory.read_write_ne _ _ hb, Memory.read_write_ne _ _ ha]

/-- On a memory that holds the bytes `f`, a swap gives one that holds the swapped bytes. -/
theorem Memory.swap_holds {m : Memory} {f : Byte → Byte} (h : Holds m f) (a b : Byte) :
    ∃ m', m.swap a b = some m' ∧ Holds m' (swapFn f a b) := by
  refine ⟨_, Memory.swap_eq_some.2 ⟨_, _, h a, h b, rfl⟩, fun c => ?_⟩
  rw [Memory.read_write, Memory.read_write, h c]
  unfold swapFn
  by_cases hb : c = b
  · by_cases ha : c = a
    · simp [← hb, ← ha]
    · have : b ≠ a := hb ▸ ha
      simp [hb, this]
  · by_cases ha : c = a <;> simp [ha, hb]
    intro hab
    exact absurd (ha.trans hab) hb

/-! ### Permutations -/

theorem Memory.holds_of_total {m : Memory} (h : ∀ a : Byte, (m.read a).isSome) : ∃ f, Holds m f :=
  ⟨fun a => (m.read a).get (h a), fun a => by simp⟩

/-- The permutation invariant on a memory that holds the bytes `f` is that `f` is a bijection. -/
theorem Memory.isPerm_iff {m : Memory} {f : Byte → Byte} (h : Holds m f) : m.IsPerm ↔ Function.Bijective f := by
  unfold Memory.IsPerm
  simp only [h _, Option.isSome_some, implies_true, true_and, Option.some.injEq]
  exact ⟨fun hp => (Function.bijective_iff_existsUnique f).2 fun v => hp v,
    fun hb v => (Function.bijective_iff_existsUnique f).1 hb v⟩

theorem Memory.IsPerm.holds {m : Memory} (h : m.IsPerm) : ∃ f, Holds m f ∧ Function.Bijective f := by
  obtain ⟨f, hf⟩ := Memory.holds_of_total h.1
  exact ⟨f, hf, (Memory.isPerm_iff hf).1 h⟩

theorem swapFn_eq (f : Byte → Byte) (a b : Byte) : swapFn f a b = f ∘ Equiv.swap a b := by
  funext x
  simp only [swapFn, Function.comp, Equiv.swap_apply_def]
  split
  · rfl
  · split <;> rfl

theorem swapFn_bijective {f : Byte → Byte} (h : Function.Bijective f) (a b : Byte) :
    Function.Bijective (swapFn f a b) := by
  rw [swapFn_eq]
  exact h.comp (Equiv.swap a b).bijective

/-- A swap keeps the permutation invariant (R157). -/
theorem Memory.IsPerm.swap {m m' : Memory} {a b : Byte} (h : m.IsPerm) (hs : m.swap a b = some m') : m'.IsPerm := by
  obtain ⟨f, hf, hb⟩ := h.holds
  obtain ⟨m'', hs', hf'⟩ := Memory.swap_holds hf a b
  obtain rfl : m' = m'' := by simpa [hs] using hs'
  exact (Memory.isPerm_iff hf').2 (swapFn_bijective hb a b)

/-! ### The identity and the key buffer -/

/-- Reading a list of consecutive cells. -/
theorem Memory.read_cells (l : List Byte) (k : Nat) (a : Byte) :
    Memory.read ((l.zipIdx k).map fun x => (x.2, x.1)) a = if k ≤ a.toNat then l[a.toNat - k]? else none := by
  induction l generalizing k with
  | nil => simp
  | cons b l ih =>
    rw [List.zipIdx_cons, List.map_cons, Memory.read, ih (k + 1)]
    by_cases h : k = a.toNat
    · simp [h]
    · by_cases hle : k ≤ a.toNat
      · have h1 : k + 1 ≤ a.toNat := by omega
        have h2 : a.toNat - k = a.toNat - (k + 1) + 1 := by omega
        simp [h, hle, h1, h2]
      · have h1 : ¬ k + 1 ≤ a.toNat := by omega
        simp [h, hle, h1]

@[simp] theorem Memory.read_ofBytes (key : List Byte) (a : Byte) : (Memory.ofBytes key).read a = key[a.toNat]? := by
  simp [Memory.ofBytes, Memory.read_cells]

theorem Memory.read_range (n k : Nat) (a : Byte) (hk : k ≤ a.toNat) (hn : a.toNat < k + n) :
    Memory.read ((List.range' k n).map fun x => (x, BitVec.ofNat 8 x)) a = some a := by
  induction n generalizing k with
  | zero => omega
  | succ n ih =>
    rw [List.range'_succ, List.map_cons, Memory.read]
    by_cases h : k = a.toNat
    · simp [h]
    · simp [h, ih (k + 1) (by omega) (by omega)]

/-- After the set-up of `KSA`, `S[n] = n` (R55). -/
theorem Memory.identity_holds : Holds Memory.identity (fun a => a) := fun a => by
  rw [Memory.identity, List.range_eq_range']
  exact Memory.read_range _ _ a (Nat.zero_le _) (by simpa [Config.nstate] using a.isLt)

theorem Memory.identity_wf : Memory.identity.wf := by
  refine ⟨List.pairwise_map.2 ?_, fun x hx => ?_⟩
  · exact List.pairwise_lt_range
  · obtain ⟨n, hn, rfl⟩ := List.mem_map.1 hx
    simpa using hn

theorem Memory.identity_isPerm : Memory.identity.IsPerm :=
  (Memory.isPerm_iff Memory.identity_holds).2 Function.bijective_id

/-! ### Equal reads, equal memories -/

theorem Memory.wf_tail {x : Host.Cell} {m : Memory} (h : Memory.wf (x :: m)) : Memory.wf m :=
  ⟨(List.pairwise_cons.1 h.1).2, fun y hy => h.2 y (List.mem_cons_of_mem _ hy)⟩

theorem Memory.read_eq_none_of_lt {m : Memory} {a : Byte} (h : ∀ x ∈ m, a.toNat < x.1) : m.read a = none := by
  induction m with
  | nil => rfl
  | cons x m ih =>
    obtain ⟨n, v⟩ := x
    have h1 : n ≠ a.toNat := Nat.ne_of_gt (h (n, v) List.mem_cons_self)
    simp [Memory.read, h1, ih fun y hy => h y (List.mem_cons_of_mem _ hy)]

theorem Memory.read_head {m : Memory} {n : Nat} {v : Byte} (h : Memory.wf ((n, v) :: m)) :
    Memory.read ((n, v) :: m) (BitVec.ofNat 8 n) = some v := by
  have : n < 256 := h.2 (n, v) List.mem_cons_self
  simp [Memory.read, Nat.mod_eq_of_lt this]

/-- Two canonical memories that read the same at every index are the same data. -/
theorem Memory.eq_of_read {m m' : Memory} (h : m.wf) (h' : m'.wf) (hr : ∀ a, m.read a = m'.read a) : m = m' := by
  induction m generalizing m' with
  | nil =>
    cases m' with
    | nil => rfl
    | cons x m' =>
      have := hr (BitVec.ofNat 8 x.1)
      rw [Memory.read_head (n := x.1) (v := x.2) h'] at this
      simp at this
  | cons x m ih =>
    obtain ⟨n, v⟩ := x
    have hx := hr (BitVec.ofNat 8 n)
    rw [Memory.read_head h] at hx
    have hn : n < 256 := h.2 (n, v) List.mem_cons_self
    cases m' with
    | nil => simp at hx
    | cons y m' =>
      obtain ⟨k, u⟩ := y
      have hk : k < 256 := h'.2 (k, u) List.mem_cons_self
      have hy := hr (BitVec.ofNat 8 k)
      rw [Memory.read_head h'] at hy
      have hgt := (List.pairwise_cons.1 h.1).1
      have hgt' := (List.pairwise_cons.1 h'.1).1
      have hnk : n = k := by
        rcases Nat.lt_trichotomy n k with hlt | heq | hlt
        · rw [Memory.read_eq_none_of_lt (m := (k, u) :: m')] at hx
          · simp at hx
          · intro z hz
            have : (BitVec.ofNat 8 n).toNat = n := by simp [Nat.mod_eq_of_lt hn]
            rcases List.mem_cons.1 hz with rfl | hz
            · simpa [this] using hlt
            · have := hgt' z hz
              simp only at this ⊢
              omega
        · exact heq
        · rw [Memory.read_eq_none_of_lt (m := (n, v) :: m)] at hy
          · simp at hy
          · intro z hz
            have : (BitVec.ofNat 8 k).toNat = k := by simp [Nat.mod_eq_of_lt hk]
            rcases List.mem_cons.1 hz with rfl | hz
            · simpa [this] using hlt
            · have := hgt z hz
              simp only at this ⊢
              omega
      subst hnk
      rw [Memory.read_head h'] at hx
      obtain rfl : v = u := by simpa using hx
      congr 1
      refine ih (Memory.wf_tail h) (Memory.wf_tail h') fun a => ?_
      by_cases ha : n = a.toNat
      · rw [Memory.read_eq_none_of_lt fun z hz => by simpa [ha] using hgt z hz,
          Memory.read_eq_none_of_lt fun z hz => by simpa [ha] using hgt' z hz]
      · simpa [Memory.read, ha] using hr a

/-- The set-up of `KSA` as R102 writes it, one write after the other, gives the identity memory whatever stood in `S` before. -/
theorem Memory.setup_eq_identity {m : Memory} (h : m.wf) :
    (List.range 256).foldl (fun m n => Memory.write m (BitVec.ofNat 8 n) (BitVec.ofNat 8 n)) m = Memory.identity := by
  have key : ∀ n, n ≤ 256 →
      let m' := (List.range n).foldl (fun m n => Memory.write m (BitVec.ofNat 8 n) (BitVec.ofNat 8 n)) m
      m'.wf ∧ ∀ a : Byte, a.toNat < n → m'.read a = some a := by
    intro n
    induction n with
    | zero => exact fun _ => ⟨h, fun a ha => absurd ha (Nat.not_lt_zero _)⟩
    | succ n ih =>
      intro hn
      rw [List.range_succ, List.foldl_append]
      obtain ⟨h1, h2⟩ := ih (Nat.le_of_succ_le hn)
      refine ⟨Memory.wf_write _ _ h1, fun a ha => ?_⟩
      rw [List.foldl_cons, List.foldl_nil, Memory.read_write]
      split
      · rename_i e
        rw [e]
      · rename_i e
        refine h2 a ?_
        have : a.toNat ≠ n := fun e' => e (by rw [← e']; simp)
        omega
  obtain ⟨h1, h2⟩ := key 256 (Nat.le_refl _)
  exact Memory.eq_of_read h1 Memory.identity_wf fun a => by
    rw [h2 a a.isLt, Memory.identity_holds a]

end Sys2Proof.Machine
end

