-- ==== Sys2Proof/Laws/State.lean ====
section
/-! SUPPORT. One lemma per field per update of the state, each true by rfl, so that no proof unfolds a record update. -/

namespace Sys2Proof.Machine

variable (s : State)

@[simp] theorem respond_S (err : ErrCode) (data : BitVec 16) : (respond s err data).S = s.S := rfl
@[simp] theorem respond_i (err : ErrCode) (data : BitVec 16) : (respond s err data).i = s.i := rfl
@[simp] theorem respond_j (err : ErrCode) (data : BitVec 16) : (respond s err data).j = s.j := rfl
@[simp] theorem respond_K (err : ErrCode) (data : BitVec 16) : (respond s err data).K = s.K := rfl
@[simp] theorem respond_klen (err : ErrCode) (data : BitVec 16) : (respond s err data).klen = s.klen := rfl
@[simp] theorem respond_rdy (err : ErrCode) (data : BitVec 16) : (respond s err data).rdy = s.rdy := rfl
@[simp] theorem respond_cause (err : ErrCode) (data : BitVec 16) : (respond s err data).cause = s.cause := rfl
@[simp] theorem respond_inputs (err : ErrCode) (data : BitVec 16) : (respond s err data).inputs = s.inputs := rfl
@[simp] theorem respond_responses (err : ErrCode) (data : BitVec 16) : (respond s err data).responses = s.responses ++ [⟨err, data⟩] := rfl
@[simp] theorem respond_freeSource (err : ErrCode) (data : BitVec 16) : (respond s err data).freeSource = s.freeSource := rfl
@[simp] theorem respond_freeCount (err : ErrCode) (data : BitVec 16) : (respond s err data).freeCount = s.freeCount := rfl

@[simp] theorem raiseFault_S (c : FaultCause) : (raiseFault s c).S = s.S := rfl
@[simp] theorem raiseFault_i (c : FaultCause) : (raiseFault s c).i = s.i := rfl
@[simp] theorem raiseFault_j (c : FaultCause) : (raiseFault s c).j = s.j := rfl
@[simp] theorem raiseFault_K (c : FaultCause) : (raiseFault s c).K = s.K := rfl
@[simp] theorem raiseFault_klen (c : FaultCause) : (raiseFault s c).klen = s.klen := rfl
@[simp] theorem raiseFault_rdy (c : FaultCause) : (raiseFault s c).rdy = s.rdy := rfl
@[simp] theorem raiseFault_cause (c : FaultCause) : (raiseFault s c).cause = causeCode c := rfl
@[simp] theorem raiseFault_inputs (c : FaultCause) : (raiseFault s c).inputs = s.inputs := rfl
@[simp] theorem raiseFault_responses (c : FaultCause) : (raiseFault s c).responses = s.responses ++ [⟨causeCode c, 0⟩] := rfl
@[simp] theorem raiseFault_freeSource (c : FaultCause) : (raiseFault s c).freeSource = s.freeSource := rfl
@[simp] theorem raiseFault_freeCount (c : FaultCause) : (raiseFault s c).freeCount = s.freeCount := rfl

@[simp] theorem refuseFaulted_S : (refuseFaulted s).S = s.S := rfl
@[simp] theorem refuseFaulted_i : (refuseFaulted s).i = s.i := rfl
@[simp] theorem refuseFaulted_j : (refuseFaulted s).j = s.j := rfl
@[simp] theorem refuseFaulted_K : (refuseFaulted s).K = s.K := rfl
@[simp] theorem refuseFaulted_klen : (refuseFaulted s).klen = s.klen := rfl
@[simp] theorem refuseFaulted_rdy : (refuseFaulted s).rdy = s.rdy := rfl
@[simp] theorem refuseFaulted_cause : (refuseFaulted s).cause = s.cause := rfl
@[simp] theorem refuseFaulted_inputs : (refuseFaulted s).inputs = s.inputs := rfl
@[simp] theorem refuseFaulted_responses : (refuseFaulted s).responses = s.responses ++ [⟨faultedCode, 0⟩] := rfl
@[simp] theorem refuseFaulted_freeSource : (refuseFaulted s).freeSource = s.freeSource := rfl
@[simp] theorem refuseFaulted_freeCount : (refuseFaulted s).freeCount = s.freeCount := rfl

@[simp] theorem resetBlock_S : (resetBlock s).S = [] := rfl
@[simp] theorem resetBlock_i : (resetBlock s).i = Config.freeByte s.freeSource s.freeCount := rfl
@[simp] theorem resetBlock_j : (resetBlock s).j = Config.freeByte s.freeSource (s.freeCount + 1) := rfl
@[simp] theorem resetBlock_K : (resetBlock s).K = [] := rfl
@[simp] theorem resetBlock_klen : (resetBlock s).klen = 0 := rfl
@[simp] theorem resetBlock_rdy : (resetBlock s).rdy = false := rfl
@[simp] theorem resetBlock_cause : (resetBlock s).cause = 0 := rfl
@[simp] theorem resetBlock_inputs : (resetBlock s).inputs = s.inputs := rfl
@[simp] theorem resetBlock_responses : (resetBlock s).responses = s.responses := rfl
@[simp] theorem resetBlock_freeSource : (resetBlock s).freeSource = s.freeSource := rfl
@[simp] theorem resetBlock_freeCount : (resetBlock s).freeCount = s.freeCount + 2 := rfl

@[simp] theorem pushKey_S (b : Byte) : (pushKey s b).S = s.S := rfl
@[simp] theorem pushKey_i (b : Byte) : (pushKey s b).i = s.i := rfl
@[simp] theorem pushKey_j (b : Byte) : (pushKey s b).j = s.j := rfl
@[simp] theorem pushKey_K (b : Byte) : (pushKey s b).K = s.K.write (kputIndex s.klen) b := rfl
@[simp] theorem pushKey_klen (b : Byte) : (pushKey s b).klen = s.klen + 1 := rfl
@[simp] theorem pushKey_rdy (b : Byte) : (pushKey s b).rdy = s.rdy := rfl
@[simp] theorem pushKey_cause (b : Byte) : (pushKey s b).cause = s.cause := rfl
@[simp] theorem pushKey_inputs (b : Byte) : (pushKey s b).inputs = s.inputs := rfl
@[simp] theorem pushKey_responses (b : Byte) : (pushKey s b).responses = s.responses := rfl
@[simp] theorem pushKey_freeSource (b : Byte) : (pushKey s b).freeSource = s.freeSource := rfl
@[simp] theorem pushKey_freeCount (b : Byte) : (pushKey s b).freeCount = s.freeCount := rfl

@[simp] theorem setCipher_S (c : CipherState) : (setCipher s c).S = c.S := rfl
@[simp] theorem setCipher_i (c : CipherState) : (setCipher s c).i = c.i := rfl
@[simp] theorem setCipher_j (c : CipherState) : (setCipher s c).j = c.j := rfl
@[simp] theorem setCipher_K (c : CipherState) : (setCipher s c).K = s.K := rfl
@[simp] theorem setCipher_klen (c : CipherState) : (setCipher s c).klen = s.klen := rfl
@[simp] theorem setCipher_rdy (c : CipherState) : (setCipher s c).rdy = s.rdy := rfl
@[simp] theorem setCipher_cause (c : CipherState) : (setCipher s c).cause = s.cause := rfl
@[simp] theorem setCipher_inputs (c : CipherState) : (setCipher s c).inputs = s.inputs := rfl
@[simp] theorem setCipher_responses (c : CipherState) : (setCipher s c).responses = s.responses := rfl
@[simp] theorem setCipher_freeSource (c : CipherState) : (setCipher s c).freeSource = s.freeSource := rfl
@[simp] theorem setCipher_freeCount (c : CipherState) : (setCipher s c).freeCount = s.freeCount := rfl

@[simp] theorem installCipher_S (c : CipherState) : (installCipher s c).S = c.S := rfl
@[simp] theorem installCipher_i (c : CipherState) : (installCipher s c).i = c.i := rfl
@[simp] theorem installCipher_j (c : CipherState) : (installCipher s c).j = c.j := rfl
@[simp] theorem installCipher_K (c : CipherState) : (installCipher s c).K = s.K := rfl
@[simp] theorem installCipher_klen (c : CipherState) : (installCipher s c).klen = 0 := rfl
@[simp] theorem installCipher_rdy (c : CipherState) : (installCipher s c).rdy = true := rfl
@[simp] theorem installCipher_cause (c : CipherState) : (installCipher s c).cause = s.cause := rfl
@[simp] theorem installCipher_inputs (c : CipherState) : (installCipher s c).inputs = s.inputs := rfl
@[simp] theorem installCipher_responses (c : CipherState) : (installCipher s c).responses = s.responses := rfl
@[simp] theorem installCipher_freeSource (c : CipherState) : (installCipher s c).freeSource = s.freeSource := rfl
@[simp] theorem installCipher_freeCount (c : CipherState) : (installCipher s c).freeCount = s.freeCount := rfl

@[simp] theorem presentWord_S (w : CmdWord) : (presentWord s w).S = s.S := rfl
@[simp] theorem presentWord_i (w : CmdWord) : (presentWord s w).i = s.i := rfl
@[simp] theorem presentWord_j (w : CmdWord) : (presentWord s w).j = s.j := rfl
@[simp] theorem presentWord_K (w : CmdWord) : (presentWord s w).K = s.K := rfl
@[simp] theorem presentWord_klen (w : CmdWord) : (presentWord s w).klen = s.klen := rfl
@[simp] theorem presentWord_rdy (w : CmdWord) : (presentWord s w).rdy = s.rdy := rfl
@[simp] theorem presentWord_cause (w : CmdWord) : (presentWord s w).cause = s.cause := rfl
@[simp] theorem presentWord_inputs (w : CmdWord) : (presentWord s w).inputs = .command w :: s.inputs := rfl
@[simp] theorem presentWord_responses (w : CmdWord) : (presentWord s w).responses = s.responses := rfl
@[simp] theorem presentWord_freeSource (w : CmdWord) : (presentWord s w).freeSource = s.freeSource := rfl
@[simp] theorem presentWord_freeCount (w : CmdWord) : (presentWord s w).freeCount = s.freeCount := rfl

@[simp] theorem presentWords_S (ws : List CmdWord) : (presentWords s ws).S = s.S := rfl
@[simp] theorem presentWords_i (ws : List CmdWord) : (presentWords s ws).i = s.i := rfl
@[simp] theorem presentWords_j (ws : List CmdWord) : (presentWords s ws).j = s.j := rfl
@[simp] theorem presentWords_K (ws : List CmdWord) : (presentWords s ws).K = s.K := rfl
@[simp] theorem presentWords_klen (ws : List CmdWord) : (presentWords s ws).klen = s.klen := rfl
@[simp] theorem presentWords_rdy (ws : List CmdWord) : (presentWords s ws).rdy = s.rdy := rfl
@[simp] theorem presentWords_cause (ws : List CmdWord) : (presentWords s ws).cause = s.cause := rfl
@[simp] theorem presentWords_inputs (ws : List CmdWord) : (presentWords s ws).inputs = ws.map .command ++ s.inputs := rfl
@[simp] theorem presentWords_responses (ws : List CmdWord) : (presentWords s ws).responses = s.responses := rfl
@[simp] theorem presentWords_freeSource (ws : List CmdWord) : (presentWords s ws).freeSource = s.freeSource := rfl
@[simp] theorem presentWords_freeCount (ws : List CmdWord) : (presentWords s ws).freeCount = s.freeCount := rfl

@[simp] theorem cipher_S : (cipher s).S = s.S := rfl
@[simp] theorem cipher_i : (cipher s).i = s.i := rfl
@[simp] theorem cipher_j : (cipher s).j = s.j := rfl
@[simp] theorem cipher_setCipher (c : CipherState) : cipher (setCipher s c) = c := rfl
@[simp] theorem cipher_installCipher (c : CipherState) : cipher (installCipher s c) = c := rfl
@[simp] theorem cipher_respond (err : ErrCode) (data : BitVec 16) : cipher (respond s err data) = cipher s := rfl
@[simp] theorem cipher_raiseFault (c : FaultCause) : cipher (raiseFault s c) = cipher s := rfl
@[simp] theorem cipher_refuseFaulted : cipher (refuseFaulted s) = cipher s := rfl
@[simp] theorem cipher_pushKey (b : Byte) : cipher (pushKey s b) = cipher s := rfl
@[simp] theorem withFetchWord_eq (nbits w : Nat) : s.withFetchWord nbits w = presentWord s (tableWord nbits w) := rfl

end Sys2Proof.Machine
end

