-- ==== Sys2Proof/Laws/Ops.lean ====
section
/-! SUPPORT. What each shared operation can do, said once: the envelope, the key schedule, the PRGA step, and the meanings. -/

namespace Sys2Proof.Machine

/-! ### The envelope -/

theorem unlessFaulted_ok {s : State} (h : s.cause = 0) (run : Host.Outcome State Fault Refusal) :
    unlessFaulted s run = run := if_pos h

theorem unlessFaulted_faulted {s : State} (h : s.cause ≠ 0) (run : Host.Outcome State Fault Refusal) :
    unlessFaulted s run = .next (refuseFaulted s) := if_neg h

/-- If the envelope answers a next state, either the block is not faulted and the command ran, or the command was refused. -/
theorem unlessFaulted_next {s t : State} {run : Host.Outcome State Fault Refusal} (h : unlessFaulted s run = .next t) :
    (s.cause = 0 ∧ run = .next t) ∨ (s.cause ≠ 0 ∧ t = refuseFaulted s) := by
  by_cases hc : s.cause = 0
  · exact .inl ⟨hc, unlessFaulted_ok hc run ▸ h⟩
  · rw [unlessFaulted_faulted hc] at h
    exact .inr ⟨hc, (Host.Outcome.next.inj h).symm⟩

/-! ### The PRGA step -/

/-- If a PRGA step gives a byte, these are the reads it made and the CipherState it leaves (R120). -/
theorem prga_eq_some {c c' : CipherState} {z : Byte} (h : prga c = some (z, c')) :
    ∃ si, c.S.read (nextI c.i) = some si ∧ c'.i = nextI c.i ∧ c'.j = nextJ c.j si ∧
      c.S.swap c'.i c'.j = some c'.S ∧
      ∃ a b, c'.S.read c'.i = some a ∧ c'.S.read c'.j = some b ∧ c'.S.read (outIndex a b) = some z := by
  simp only [prga, Option.bind_eq_bind, Option.bind_eq_some_iff, Option.pure_def, Option.some.injEq, Prod.mk.injEq] at h
  obtain ⟨si, h1, S, h2, a, h3, b, h4, z', h5, rfl, rfl⟩ := h
  exact ⟨si, h1, rfl, rfl, h2, a, b, h3, h4, h5⟩

/-- On an `S` that holds the bytes `f`, a PRGA step gives the byte and the bytes R120 says. -/
theorem prga_holds {c : CipherState} {f : Byte → Byte} (h : Holds c.S f) :
    let i := c.i + 1
    let j := c.j + f i
    let g := swapFn f i j
    ∃ S', prga c = some (g (g i + g j), { S := S', i := i, j := j }) ∧ Holds S' g := by
  intro i j g
  obtain ⟨S', hs, hg⟩ := Memory.swap_holds h i j
  refine ⟨S', ?_, hg⟩
  have h1 : c.S.read (nextI c.i) = some (f i) := h i
  have h2 : c.S.swap (nextI c.i) (nextJ c.j (f i)) = some S' := hs
  have h3 : S'.read (nextI c.i) = some (g i) := hg i
  have h4 : S'.read (nextJ c.j (f i)) = some (g j) := hg j
  have h5 : S'.read (outIndex (g i) (g j)) = some (g (g i + g j)) := hg _
  simp only [prga, Option.bind_eq_bind, h1, h2, h3, h4, h5, Option.bind_some, Option.pure_def]
  rfl

theorem prga_of_isPerm {c : CipherState} (h : c.S.IsPerm) : ∃ z c', prga c = some (z, c') := by
  obtain ⟨f, hf, -⟩ := h.holds
  obtain ⟨S', hs, -⟩ := prga_holds hf
  exact ⟨_, _, hs⟩

theorem prga_isPerm {c c' : CipherState} {z : Byte} (hp : c.S.IsPerm) (h : prga c = some (z, c')) : c'.S.IsPerm := by
  obtain ⟨si, -, -, -, hs, -⟩ := prga_eq_some h
  exact hp.swap hs

theorem prga_wf {c c' : CipherState} {z : Byte} (hw : c.S.wf) (h : prga c = some (z, c')) : c'.S.wf := by
  obtain ⟨si, -, -, -, hs, -⟩ := prga_eq_some h
  exact Memory.wf_swap hw hs

/-! ### The key schedule -/

theorem ksaRound_eq_some {K : Memory} {klen : BitVec 9} {st st' : Byte × Memory} {r : Nat}
    (h : ksaRound K klen st r = some st') : st.2.swap (BitVec.ofNat 8 r) st'.1 = some st'.2 := by
  simp only [ksaRound, Option.bind_eq_bind, Option.bind_eq_some_iff, Option.pure_def, Option.some.injEq] at h
  obtain ⟨sr, -, kr, -, S, h2, rfl⟩ := h
  exact h2

/-- A property of `S` that the identity has and every swap keeps holds after any number of rounds. -/
theorem ksaRounds_induct {P : Memory → Prop} {K : Memory} {klen : BitVec 9}
    (hswap : ∀ m m' a b, P m → Memory.swap m a b = some m' → P m') :
    ∀ (rs : List Nat) (st st' : Byte × Memory), P st.2 → rs.foldlM (ksaRound K klen) st = some st' → P st'.2 := by
  intro rs
  induction rs with
  | nil =>
    intro st st' h0 h
    obtain rfl : st = st' := by simpa using h
    exact h0
  | cons r rs ih =>
    intro st st' h0 h
    rw [List.foldlM_cons, Option.bind_eq_bind, Option.bind_eq_some_iff] at h
    obtain ⟨st1, h1, h2⟩ := h
    exact ih st1 st' (hswap _ _ _ _ h0 (ksaRound_eq_some h1)) h2

theorem keySchedule_eq_some {K : Memory} {klen : BitVec 9} {c : CipherState} (h : keySchedule K klen = some c) :
    c.i = 0 ∧ c.j = 0 ∧
    ∃ st, (List.range Config.ksaRounds).foldlM (ksaRound K klen) (0, Memory.identity) = some st ∧ c.S = st.2 := by
  simp only [keySchedule, Option.bind_eq_bind, Option.bind_eq_some_iff, Option.pure_def, Option.some.injEq] at h
  obtain ⟨st, h1, rfl⟩ := h
  exact ⟨rfl, rfl, st, h1, rfl⟩

theorem keySchedule_isPerm {K : Memory} {klen : BitVec 9} {c : CipherState} (h : keySchedule K klen = some c) :
    c.S.IsPerm := by
  obtain ⟨-, -, st, h1, h2⟩ := keySchedule_eq_some h
  exact h2 ▸ ksaRounds_induct (fun _ _ _ _ hp hs => hp.swap hs) _ _ _ Memory.identity_isPerm h1

theorem keySchedule_wf {K : Memory} {klen : BitVec 9} {c : CipherState} (h : keySchedule K klen = some c) : c.S.wf := by
  obtain ⟨-, -, st, h1, h2⟩ := keySchedule_eq_some h
  exact h2 ▸ ksaRounds_induct (fun _ _ _ _ hp hs => Memory.wf_swap hp hs) _ _ _ Memory.identity_wf h1

/-- The key schedule reads the key only at `r mod KLEN` (R104). -/
theorem keySchedule_congr {K K' : Memory} {klen klen' : BitVec 9}
    (h : ∀ r, r < 256 → K.read (keyIndex r klen) = K'.read (keyIndex r klen')) :
    keySchedule K klen = keySchedule K' klen' := by
  have key : ∀ (rs : List Nat) (st : Byte × Memory), (∀ r ∈ rs, r < 256) →
      rs.foldlM (ksaRound K klen) st = rs.foldlM (ksaRound K' klen') st := by
    intro rs
    induction rs with
    | nil => exact fun _ _ => rfl
    | cons r rs ih =>
      intro st hr
      have hround : ksaRound K klen st r = ksaRound K' klen' st r := by
        simp only [ksaRound, h r (hr r List.mem_cons_self)]
      rw [List.foldlM_cons, List.foldlM_cons, hround]
      exact congrArg (Option.bind _) (funext fun st' => ih st' fun x hx => hr x (List.mem_cons_of_mem _ hx))
  unfold keySchedule
  rw [key _ _ fun r hr => by simpa [Config.ksaRounds] using hr]

/-- An index `r mod KLEN` is below `KLEN` (R53). -/
theorem keyIndex_eq {r : Nat} {klen : BitVec 9} (h : klen ≠ 0) :
    ∃ n, n < klen.toNat ∧ n = r % klen.toNat ∧ keyIndex r klen = BitVec.ofNat 8 n := by
  refine ⟨_, Nat.mod_lt _ ?_, rfl, rfl⟩
  exact Nat.pos_of_ne_zero fun e => h (BitVec.eq_of_toNat_eq (by simpa using e))

/-- The rounds on a key buffer that holds the expanded key `e` give what `ksaFn` says. -/
theorem ksaRounds_holds {K : Memory} {klen : BitVec 9} {e : Nat → Byte}
    (h : ∀ r, r < 256 → K.read (keyIndex r klen) = some (e r)) (n : Nat) (hn : n ≤ 256) :
    ∃ S, (List.range n).foldlM (ksaRound K klen) (0, Memory.identity) = some ((ksaFn e n).1, S) ∧
      Holds S (ksaFn e n).2 := by
  induction n with
  | zero => exact ⟨_, rfl, Memory.identity_holds⟩
  | succ n ih =>
    obtain ⟨S, h1, h2⟩ := ih (Nat.le_of_succ_le hn)
    obtain ⟨S', h3, h4⟩ := Memory.swap_holds h2 (BitVec.ofNat 8 n)
      ((ksaFn e n).1 + (ksaFn e n).2 (BitVec.ofNat 8 n) + e n)
    refine ⟨S', ?_, h4⟩
    rw [List.range_succ, List.foldlM_append, h1]
    have h5 := h n hn
    have h6 : S.read (BitVec.ofNat 8 n) = _ := h2 (BitVec.ofNat 8 n)
    simp only [List.foldlM_cons, List.foldlM_nil, ksaRound, Option.bind_eq_bind, Option.bind_some, h5, h6, ksaSum, add8,
      h3, Option.pure_def]
    rfl

/-- The key schedule on a key buffer that holds the expanded key `e` (R102, R104). -/
theorem keySchedule_holds {K : Memory} {klen : BitVec 9} {e : Nat → Byte}
    (h : ∀ r, r < 256 → K.read (keyIndex r klen) = some (e r)) :
    ∃ S, keySchedule K klen = some { S := S, i := 0, j := 0 } ∧ Holds S (ksaFn e 256).2 := by
  obtain ⟨S, h1, h2⟩ := ksaRounds_holds h 256 (Nat.le_refl _)
  refine ⟨S, ?_, h2⟩
  unfold keySchedule
  rw [show Config.ksaRounds = 256 from rfl, h1]
  rfl

theorem keySchedule_of_keyHeld {K : Memory} {klen : BitVec 9} (h0 : klen ≠ 0) (h : KeyHeld K klen) :
    ∃ c, keySchedule K klen = some c := by
  have hr : ∀ r, ∃ v, K.read (keyIndex r klen) = some v := fun r => by
    obtain ⟨n, hn, -, he⟩ := keyIndex_eq (r := r) h0
    exact he ▸ Option.isSome_iff_exists.1 (h n hn)
  obtain ⟨S, hS, -⟩ := keySchedule_holds (e := fun r => (hr r).choose) fun r _ => (hr r).choose_spec
  exact ⟨_, hS⟩

/-! ### The meanings: what each can answer -/

theorem streamStep_faulted {s : State} (h : s.cause ≠ 0) (data : Byte → Byte) :
    streamStep s data = .next (refuseFaulted s) := unlessFaulted_faulted h _

theorem streamStep_notReady {s : State} (hc : s.cause = 0) (hr : s.rdy = false) (data : Byte → Byte) :
    streamStep s data = .next (raiseFault s .notReady) := by
  simp [streamStep, unlessFaulted_ok hc, hr]

theorem streamStep_run {s : State} {z : Byte} {c : CipherState} (hc : s.cause = 0) (hr : s.rdy = true)
    (hp : prga (cipher s) = some (z, c)) (data : Byte → Byte) :
    streamStep s data = .next (respond (setCipher s c) okCode (zext16 (data z))) := by
  simp [streamStep, unlessFaulted_ok hc, hr, hp]

theorem streamStep_unwritten {s : State} (hc : s.cause = 0) (hr : s.rdy = true) (hp : prga (cipher s) = none)
    (data : Byte → Byte) : streamStep s data = .fault .unwrittenS := by
  simp [streamStep, unlessFaulted_ok hc, hr, hp]

theorem execKput_faulted {s : State} (h : s.cause ≠ 0) (b : Byte) : execKput b s = .next (refuseFaulted s) :=
  unlessFaulted_faulted h _

theorem execKput_full {s : State} (hc : s.cause = 0) (hk : s.klen = 256) (b : Byte) :
    execKput b s = .next (raiseFault s .keyOverflow) := by
  simp [execKput, unlessFaulted_ok hc, hk]

theorem execKput_run {s : State} (hc : s.cause = 0) (hk : s.klen ≠ 256) (b : Byte) :
    execKput b s = .next (respond (pushKey s b) okCode 0) := by
  rw [execKput, unlessFaulted_ok hc, if_neg hk]

theorem execKsa_faulted {s : State} (h : s.cause ≠ 0) : execKsa s = .next (refuseFaulted s) :=
  unlessFaulted_faulted h _

theorem execKsa_empty {s : State} (hc : s.cause = 0) (hk : s.klen = 0) : execKsa s = .next (raiseFault s .emptyKey) := by
  simp [execKsa, unlessFaulted_ok hc, hk]

theorem execKsa_run {s : State} {c : CipherState} (hc : s.cause = 0) (hk : s.klen ≠ 0)
    (hs : keySchedule s.K s.klen = some c) : execKsa s = .next (respond (installCipher s c) okCode 0) := by
  rw [execKsa, unlessFaulted_ok hc, if_neg hk, hs]

theorem execKsa_unwritten {s : State} (hc : s.cause = 0) (hk : s.klen ≠ 0) (hs : keySchedule s.K s.klen = none) :
    execKsa s = .fault .unwrittenK := by
  rw [execKsa, unlessFaulted_ok hc, if_neg hk, hs]

/-- If `NEXT` or `XORB` answers a next state, it was refused, raised `Fault(4)`, or made one PRGA step. -/
theorem streamStep_next {s t : State} {data : Byte → Byte} (h : streamStep s data = .next t) :
    (s.cause ≠ 0 ∧ t = refuseFaulted s) ∨
    (s.cause = 0 ∧ s.rdy = false ∧ t = raiseFault s .notReady) ∨
    (s.cause = 0 ∧ s.rdy = true ∧ ∃ z c, prga (cipher s) = some (z, c) ∧
      t = respond (setCipher s c) okCode (zext16 (data z))) := by
  rcases unlessFaulted_next h with ⟨hc, h⟩ | h
  · cases hr : s.rdy with
    | false => rw [hr] at h; exact .inr (.inl ⟨hc, rfl, (Host.Outcome.next.inj h).symm⟩)
    | true =>
      rw [hr] at h
      simp only [if_true] at h
      split at h
      · rename_i z c hp
        exact .inr (.inr ⟨hc, rfl, z, c, hp, (Host.Outcome.next.inj h).symm⟩)
      · cases h
  · exact .inl h

/-- If `KPUT` answers a next state, it was refused, raised `Fault(3)`, or appended the byte. -/
theorem execKput_next {b : Byte} {s t : State} (h : execKput b s = .next t) :
    (s.cause ≠ 0 ∧ t = refuseFaulted s) ∨
    (s.cause = 0 ∧ s.klen = 256 ∧ t = raiseFault s .keyOverflow) ∨
    (s.cause = 0 ∧ s.klen ≠ 256 ∧ t = respond (pushKey s b) okCode 0) := by
  rcases unlessFaulted_next h with ⟨hc, h⟩ | h
  · split at h
    · rename_i hk
      exact .inr (.inl ⟨hc, hk, (Host.Outcome.next.inj h).symm⟩)
    · rename_i hk
      exact .inr (.inr ⟨hc, hk, (Host.Outcome.next.inj h).symm⟩)
  · exact .inl h

/-- If `KSA` answers a next state, it was refused, raised `Fault(2)`, or ran the key schedule. -/
theorem execKsa_next {s t : State} (h : execKsa s = .next t) :
    (s.cause ≠ 0 ∧ t = refuseFaulted s) ∨
    (s.cause = 0 ∧ s.klen = 0 ∧ t = raiseFault s .emptyKey) ∨
    (s.cause = 0 ∧ s.klen ≠ 0 ∧ ∃ c, keySchedule s.K s.klen = some c ∧
      t = respond (installCipher s c) okCode 0) := by
  rcases unlessFaulted_next h with ⟨hc, h⟩ | h
  · split at h
    · rename_i hk
      exact .inr (.inl ⟨hc, hk, (Host.Outcome.next.inj h).symm⟩)
    · rename_i hk
      split at h
      · rename_i c hs
        exact .inr (.inr ⟨hc, hk, c, hs, (Host.Outcome.next.inj h).symm⟩)
      · cases h
  · exact .inl h

/-- If an illegal word is answered, it was refused or raised `Fault(1)`. -/
theorem execIllegal_next {s t : State} (h : execIllegal s = .next t) :
    (s.cause ≠ 0 ∧ t = refuseFaulted s) ∨ (s.cause = 0 ∧ t = raiseFault s .illegal) := by
  rcases unlessFaulted_next h with ⟨hc, h⟩ | h
  · exact .inr ⟨hc, (Host.Outcome.next.inj h).symm⟩
  · exact .inl h

/-! ### Decoding -/

theorem execWord_command {w : CmdWord} {i : Instr} (h : decode w = .command i) (s : State) : execWord w s = exec i s := by
  simp [execWord, h]

theorem execWord_illegal {w : CmdWord} {why : IllegalWord} (h : decode w = .illegal why) (s : State) :
    execWord w s = execIllegal s := by
  simp [execWord, h]

/-! ### Steps -/

theorem step_command {s : State} {w : CmdWord} {rest : List HostEvent} (h : s.inputs = .command w :: rest) :
    step s = execWord w { s with inputs := rest } := by
  simp [step, stepEvent, takeEvent, h, execEvent]

theorem core_run_next {k : Nat} {s t : State} (h : step s = .next t) :
    Host.Core.run core (k + 1) s = Host.Core.run core k t := by
  have h' : core.step s = .next t := h
  simp only [Host.Core.run]
  rw [h']

theorem core_run_fault {k : Nat} {s : State} {f : Fault} (h : step s = .fault f) :
    Host.Core.run core (k + 1) s = .fault f := by
  have h' : core.step s = .fault f := h
  simp only [Host.Core.run]
  rw [h']

theorem core_run_refused {k : Nat} {s : State} {r : Refusal} (h : step s = .refused r) :
    Host.Core.run core (k + 1) s = .refused r := by
  have h' : core.step s = .refused r := h
  simp only [Host.Core.run]
  rw [h']

/-! ### Runs of words -/

theorem runWords_cons_next {w : CmdWord} {ws : List CmdWord} {s t : State} (h : execWord w s = .next t) :
    runWords (w :: ws) s = runWords ws t := by
  simp [runWords, h]

/-- A run of words followed by more words. -/
theorem runWords_append_next {ws ws' : List CmdWord} {s t : State} (h : runWords ws s = .next t) :
    runWords (ws ++ ws') s = runWords ws' t := by
  induction ws generalizing s with
  | nil =>
    obtain rfl : s = t := by simpa [runWords] using h
    rfl
  | cons w ws ih =>
    cases hw : execWord w s with
    | next u =>
      rw [runWords_cons_next hw] at h
      rw [List.cons_append, runWords_cons_next hw]
      exact ih h
    | fault f => simp [runWords, hw] at h
    | refused r => simp [runWords, hw] at h

/-! ### What the host takes from responses -/

theorem allOk_iff {rs : List Response} : allOk rs = true ↔ ∀ r ∈ rs, r.isOk := by
  simp [allOk, Response.isOk]

theorem streamBytes_refused (n : Nat) : streamBytes (List.replicate n ⟨faultedCode, 0⟩) = [] := by
  simp [streamBytes, streamByte, faultedCode, okCode]

theorem streamBytes_byteResponse (zs : List Byte) : streamBytes (zs.map byteResponse) = zs := by
  have h : ∀ z : Byte, streamByte (byteResponse z) = some z := by decide
  induction zs with
  | nil => rfl
  | cons z zs ih => rw [List.map_cons, streamBytes, List.filterMap_cons_some (h z)]; exact congrArg _ ih

/-- A run of `ENCRYPT` gives a result only where every one of its responses has `err = 0` (R153, R208). -/
theorem encryptResult_eq_some {s : State} {data key out : List Byte} (h : encryptResult s data key = some out) :
    ∃ t, runWords (pseudoWords (.encrypt data key)) s = .next t ∧
      (∀ r ∈ t.responses.drop s.responses.length, r.isOk) ∧
      out = streamBytes (xorbResponses (t.responses.drop s.responses.length) data key) := by
  unfold encryptResult at h
  split at h
  · rename_i t ht
    simp only at h
    split at h
    · rename_i hok
      exact ⟨t, ht, allOk_iff.1 hok, (Option.some.inj h).symm⟩
    · cases h
  · cases h
  · cases h

end Sys2Proof.Machine
end

