-- ==== Sys2Proof/Laws/PerInstr.lean ====
section
/-! SUPPORT. The per-instruction family: an instruction's encoding matches its own row of the opcode map (spec/30_encoding.md R74), which is a row of the map. -/

namespace Sys2Proof.Laws.EncodingMatchesRow

/-- The encoded word matches the instruction's row, and the row stands in the opcode map. -/
def Statement (i : Instr) : Prop := i.row.covers (encode i) = true ∧ i.row ∈ opcodeTable

theorem rst : Statement .rst := ⟨by decide, by simp [Instr.row, opcodeTable]⟩

theorem stat : Statement .stat := ⟨by decide, by simp [Instr.row, opcodeTable]⟩

theorem kput (b : Byte) : Statement (.kput b) := by
  refine ⟨?_, by simp [Instr.row, opcodeTable]⟩
  revert b
  decide

theorem ksa : Statement .ksa := ⟨by decide, by simp [Instr.row, opcodeTable]⟩

theorem next : Statement .next := ⟨by decide, by simp [Instr.row, opcodeTable]⟩

theorem xorb (b : Byte) : Statement (.xorb b) := by
  refine ⟨?_, by simp [Instr.row, opcodeTable]⟩
  revert b
  decide

end Sys2Proof.Laws.EncodingMatchesRow
end

