-- ==== Sys2Proof/Tests/Slice0.lean ====
section
/-! SUPPORT. Small tests, their expected values taken from spec/, and for every statement with hypotheses a witness that meets them. -/

namespace Sys2Proof.Tests

open Sys2Proof Sys2Proof.Machine

/-! ### Helpers -/

/-- The next state of an outcome. -/
def after : Host.Outcome State Fault Refusal → Option State
  | .next s => some s
  | .fault _ => none
  | .refused _ => none

/-- The last response and the `STATUS` of the next state. -/
def seen (o : Host.Outcome State Fault Refusal) : Option (Option Response × BitVec 16) :=
  (after o).map (fun s => (s.responses.getLast?, status s))

/-- The bytes of "Key" are in the key buffer and no CipherState exists (95_test_vectors.md section 3.3). -/
def keyLoaded : State := { State.reset with K := [(0, 0x4B), (1, 0x65), (2, 0x79)], klen := 3 }

/-- A stream of the identity permutation is running and three key bytes are held. -/
def streaming : State := { keyLoaded with S := Memory.identity, rdy := true }

/-- The entries of `S` that the first step after `INIT "Key"` reads (95_test_vectors.md section 3.2). -/
def keyStream : State :=
  { State.reset with S := [(1, 0x33), (51, 0x4E), (129, 0xEB)], rdy := true }

/-- The block is faulted with cause 2. -/
def faulted : State := { State.reset with cause := 2 }

/-- The key buffer is full. -/
def full : State := { State.reset with klen := 256 }

/-! ### Well-formed words and decoding -/

theorem test_legal_refuses_zeros : legalWord 0x0000 = false := by decide
theorem test_legal_refuses_ones : legalWord 0xFFFF = false := by decide
theorem test_legal_refuses_rst_with_arg : legalWord 0x0101 = false := by decide
theorem test_legal_refuses_unassigned : legalWord 0x2200 = false := by decide
theorem test_legal_accepts_kput : legalWord 0x10FF = true := by decide
theorem test_wellFormed_kput : (Instr.kput 0xFF).wellFormed = true := by decide

theorem test_decode_rst : decode 0b0000000100000000 = .command .rst := by decide
theorem test_decode_stat : decode 0b0000001000000000 = .command .stat := by decide
theorem test_decode_kput : decode 0b0001000011111111 = .command (.kput 0b11111111) := by decide
theorem test_decode_kput_4B : decode 0b0001000001001011 = .command (.kput 0x4B) := by decide
theorem test_decode_ksa : decode 0b0001000100000000 = .command .ksa := by decide
theorem test_decode_next : decode 0b0010000000000000 = .command .next := by decide
theorem test_decode_xorb : decode 0b0010000101010000 = .command (.xorb 0x50) := by decide
theorem test_decode_zeros : decode 0x0000 = .illegal (.unassignedOp 0x00) := by decide
theorem test_decode_ones : decode 0xFFFF = .illegal (.unassignedOp 0xFF) := by decide
theorem test_decode_stat_with_arg : decode 0x0201 = .illegal (.nonzeroArg 0x02 0x01) := by decide
theorem test_decode_ksa_with_arg : decode 0x1101 = .illegal (.nonzeroArg 0x11 0x01) := by decide
theorem test_decode_next_with_arg : decode 0x2001 = .illegal (.nonzeroArg 0x20 0x01) := by decide
theorem test_decode_1200 : decode 0x1200 = .illegal (.unassignedOp 0x12) := by decide
theorem test_encode_xorb : encode (.xorb 0x50) = 0x2150 := by decide
theorem test_decodeTableWord : decodeTableWord 16 0x104B = some (.kput 0x4B) := by decide
theorem test_decodeTableWord_illegal : decodeTableWord 16 0x0101 = none := by decide

/-! ### RST and STAT (95_test_vectors.md section 3.3) -/

theorem test_rst_leaves_fault : seen (exec .rst faulted) = some (some ⟨0, 0⟩, 0x0000) := by decide
theorem test_rst_drops_key : (after (exec .rst keyLoaded)).map (fun s => (s.K, s.klen)) = some ([], 0) := by decide
theorem test_stat_key_loaded : seen (exec .stat keyLoaded) = some (some ⟨0, 0x0003⟩, 0x0003) := by decide
theorem test_stat_full_faulted :
    seen (exec .stat { full with cause := 3 }) = some (some ⟨0, 0x3900⟩, 0x3900) := by decide

/-! ### KPUT (R100, section 3.1) -/

theorem test_kput_first :
    after (exec (.kput 0x4B) State.reset) =
      some { State.reset with K := [(0, 0x4B)], klen := 1, responses := [⟨0, 0⟩] } := by decide
theorem test_kput_256th :
    seen (exec (.kput 0x00) { State.reset with klen := 255 }) = some (some ⟨0, 0⟩, 0x0100) := by decide
theorem test_kput_257th : seen (exec (.kput 0xAA) full) = some (some ⟨3, 0⟩, 0x3900) := by decide

/-! ### KSA (R102, section 3.1) -/

/-- Round traces of key 00: round 3 reads the current `S[3] = 02`, so `t = 5`. -/
theorem test_ksa_rounds_key_00 :
    ((List.range 4).foldlM (ksaRound [(0, 0x00)] 1) (0, Memory.identity)).map (fun st => (st.1, (st.2.take 8).map (·.2))) =
      some (5, [0x00, 0x01, 0x03, 0x05, 0x04, 0x02, 0x06, 0x07]) := by decide +kernel

/-- Round traces of "Key": after round 5 the sum is 97. -/
theorem test_ksa_rounds_key :
    ((List.range 6).foldlM (ksaRound keyLoaded.K 3) (0, Memory.identity)).map (fun st => (st.1, (st.2.take 8).map (·.2))) =
      some (97, [0x4B, 0xB1, 0x2C, 0x7A, 0xE3, 0x61, 0x06, 0x07]) := by decide +kernel

/-- After `INIT "Key"`: `S[0..7]`, `S[240..243]`, the cursors and `STATUS`. -/
theorem test_ksa_key :
    (after (exec .ksa keyLoaded)).map (fun s => ((s.S.take 8).map (·.2), ((s.S.drop 240).take 4).map (·.2), s.i, s.j, status s)) =
      some ([0x4B, 0x33, 0x84, 0x9D, 0xC0, 0xC8, 0x1D, 0xA8], [0xF8, 0x7D, 0xB1, 0xA6], 0, 0, 0x0400) := by decide +kernel

theorem test_ksa_empty_keeps_ready :
    seen (exec .ksa { State.reset with rdy := true }) = some (some ⟨2, 0⟩, 0x2C00) := by decide

/-! ### NEXT and XORB (R120 to R125, section 3.2) -/

theorem test_next_first_of_key :
    after (exec .next keyStream) =
      some { keyStream with S := [(1, 0x4E), (51, 0x33), (129, 0xEB)], i := 1, j := 51, responses := [⟨0, 0x00EB⟩] } := by decide

/-- Step 22 of "Key": the new `i` equals the new `j`, so the swap changes nothing (R125). -/
theorem test_next_equal_cursors :
    after (exec .next { State.reset with S := [(22, 0xCC), (152, 0x17)], i := 21, j := 74, rdy := true }) =
      some { State.reset with S := [(22, 0xCC), (152, 0x17)], i := 22, j := 22, rdy := true, responses := [⟨0, 0x0017⟩] } := by
  decide

theorem test_xorb_first_of_key : seen (exec (.xorb 0x50) keyStream) = some (some ⟨0, 0x00BB⟩, 0x0400) := by decide
theorem test_xorb_not_ready : seen (exec (.xorb 0x41) State.reset) = some (some ⟨4, 0⟩, 0x4800) := by decide
theorem test_next_not_ready_with_key : seen (exec .next keyLoaded) = some (some ⟨4, 0⟩, 0x4803) := by decide

/-! ### The envelope, reset and the ports (section 3.4, R200) -/

theorem test_illegal_faults : seen (execWord 0x0101 State.reset) = some (some ⟨1, 0⟩, 0x1800) := by decide
theorem test_faulted_refuses_illegal :
    seen (execWord 0x0101 { State.reset with cause := 1 }) = some (some ⟨5, 0⟩, 0x1800) := by decide
theorem test_faulted_refuses_kput : after (exec (.kput 0x4B) faulted) = some { faulted with responses := [⟨5, 0⟩] } := by decide
theorem test_fetch_word_runs : seen (step (State.reset.withFetchWord 16 0x1100)) = some (some ⟨2, 0⟩, 0x2800) := by decide
theorem test_step_waits : after (step keyLoaded) = some keyLoaded := by decide
theorem test_reset_during_command :
    (after (step { keyLoaded with inputs := [.resetDuring 0x1100] })).map (fun s => (s.klen, s.rdy, s.responses)) =
      some (0, false, []) := by decide
theorem test_response_word : responseWord ⟨3, 0x00BB⟩ = 0x300BB := by decide
theorem test_blocks_step_one :
    (stepBlock 1 [keyLoaded, { keyLoaded with inputs := [.command 0x2000] }]).map
        (fun o => match o with
          | .next bs => bs.map status
          | .fault _ => []
          | .refused _ => []) = some [0x0003, 0x4803] := by decide
theorem test_blocks_own_sources : (resetBlocks 2).map (fun s => s.freeSource) = [0, 1] := by decide
theorem test_encrypt_empty_key_no_result : encryptResult State.reset [0x41] [] = none := by decide
theorem test_refused_xorb_no_byte : streamBytes [⟨0, 0x00BB⟩, ⟨5, 0⟩] = [0xBB] := by decide

/-! ### Assembler notation (R79) -/

theorem test_assemble_kput : assembleLine ['K', 'P', 'U', 'T', ' ', '0', 'x', '4', 'B'] = some [0x104B] := by decide
theorem test_assemble_kput_decimal : assembleLine ['K', 'P', 'U', 'T', ' ', '7', '5', ' ', ';', 'k'] = some [0x104B] := by decide
theorem test_assemble_xorb_char :
    assembleLine ['X', 'O', 'R', 'B', ' ', singleQuote, 'P', singleQuote] = some [0x2150] := by decide
theorem test_assemble_xorb_semicolon :
    assembleLine ['X', 'O', 'R', 'B', ' ', singleQuote, ';', singleQuote] = some [0x213B] := by decide
theorem test_assemble_init_string :
    assembleLine ['I', 'N', 'I', 'T', ' ', doubleQuote, 'K', 'e', 'y', doubleQuote] = some [0x104B, 0x1065, 0x1079, 0x1100] := by
  decide
theorem test_assemble_init_hex :
    assembleLine ['I', 'N', 'I', 'T', ' ', '[', '4', 'B', ' ', '6', '5', ']'] = some [0x104B, 0x1065, 0x1100] := by decide
theorem test_assemble_keystream : assembleLine ['K', 'E', 'Y', 'S', 'T', 'R', 'E', 'A', 'M', ' ', '2'] = some [0x2000, 0x2000] := by
  decide
theorem test_assemble_encrypt :
    assembleLine ['E', 'N', 'C', 'R', 'Y', 'P', 'T', ' ', doubleQuote, 'P', doubleQuote, ',', ' ', '[', '0', '1', ']'] =
      some [0x1001, 0x1100, 0x2150, 0x0100] := by decide
theorem test_assemble_refuses_operand : assembleLine ['K', 'S', 'A', ' ', '1'] = none := by decide

/-! ### Witnesses: states and operands that meet the hypotheses of each statement -/

theorem keyLoaded_held : KeyHeld keyLoaded.K keyLoaded.klen := by
  intro n hn
  have : n < 3 := hn
  interval_cases n <;> decide

theorem streaming_inv : Inv streaming where
  klen_le := by decide
  cause_le := by decide
  S_wf := Memory.identity_wf
  K_wf := by decide
  key_held := keyLoaded_held
  perm := fun _ => Memory.identity_isPerm

theorem full_inv : Inv { full with K := Memory.identity } where
  klen_le := by decide
  cause_le := by decide
  S_wf := Memory.wf_nil
  K_wf := Memory.identity_wf
  key_held := fun n _ => by
    have := Memory.identity_holds (BitVec.ofNat 8 n)
    simp [this]
  perm := fun h => by cases h

theorem keyLoaded_ksa : ∃ t, exec .ksa keyLoaded = .next t := by
  obtain ⟨c, hc⟩ := keySchedule_of_keyHeld (by decide) keyLoaded_held
  exact ⟨_, execKsa_run (by decide) (by decide) hc⟩

theorem streaming_next : ∃ t, exec .next streaming = .next t := by
  obtain ⟨z, c, h⟩ := prga_of_isPerm (c := cipher streaming) Memory.identity_isPerm
  exact ⟨_, streamStep_run (by decide) (by decide) h (fun z => z)⟩

theorem streaming_xorb (b : Byte) : ∃ t, exec (.xorb b) streaming = .next t := by
  obtain ⟨z, c, h⟩ := prga_of_isPerm (c := cipher streaming) Memory.identity_isPerm
  exact ⟨_, streamStep_run (by decide) (by decide) h (fun z => z ^^^ b)⟩

theorem witness_DecodeFollowsOpcodeMap : decode 0x21FF = .command (.xorb 0xFF) := by decide

theorem witness_ReservedWordsFault : ∃ why, decode 0x0101 = .illegal why := ⟨_, rfl⟩

theorem witness_StepRunsDecodedCommand_command :
    ∃ (s : State) (rest : List HostEvent), s.inputs = .command 0x1100 :: rest ∧ decode 0x1100 = .command .ksa :=
  ⟨{ keyLoaded with inputs := [.command 0x1100, .reset] }, [.reset], by decide⟩

theorem witness_StepRunsDecodedCommand_illegal :
    ∃ (s : State) (rest : List HostEvent) (why : IllegalWord), s.inputs = .command 0x2001 :: rest ∧ decode 0x2001 = .illegal why :=
  ⟨{ keyLoaded with inputs := [.command 0x2001] }, [], _, rfl, rfl⟩

theorem witness_StepRunsDecodedCommand_waits : keyLoaded.inputs = [] := by decide

theorem witness_EnvelopeOfEveryCommand : Inv streaming := streaming_inv

theorem witness_RstGivesResetState : opField 0x0101 = 0x01 ∧ argField 0x0101 ≠ 0 := by decide

theorem witness_StatReturnsStatus : full.klen = 256 ∧ opField 0x0201 = 0x02 ∧ argField 0x0201 ≠ 0 := by decide

theorem witness_ResponseFormat : Inv streaming := streaming_inv

theorem witness_SuccessDataByCommand :
    ∃ (t : State) (d : BitVec 16), exec (.xorb 0x50) keyStream = .next t ∧ t.responses = keyStream.responses ++ [⟨0, d⟩] :=
  ⟨{ keyStream with S := [(1, 0x4E), (51, 0x33), (129, 0xEB)], i := 1, j := 51, responses := [⟨0, 0x00BB⟩] }, 0x00BB, rfl, rfl⟩

theorem witness_CommandAnsweredInOneStep :
    Inv { streaming with inputs := [.command 0x2000] } ∧
      ({ streaming with inputs := [.command 0x2000] } : State).inputs = .command 0x2000 :: [] :=
  ⟨⟨streaming_inv.1, streaming_inv.2, streaming_inv.3, streaming_inv.4, streaming_inv.5, streaming_inv.6⟩, rfl⟩

theorem witness_StatusFields_key : keyLoaded.cause = 0 ∧ keyLoaded.rdy = false ∧ keyLoaded.klen = 3 := by decide

theorem witness_StatusFields_ksa : keyLoaded.cause = 0 ∧ keyLoaded.klen ≠ 0 ∧ ∃ t, exec .ksa keyLoaded = .next t :=
  ⟨by decide, by decide, keyLoaded_ksa⟩

theorem witness_SystemFrame : (∃ t, exec .stat faulted = .next t) ∧ ∃ t, exec .rst faulted = .next t := ⟨⟨_, rfl⟩, ⟨_, rfl⟩⟩

theorem witness_KputAppendsKeyByte_full : full.cause = 0 ∧ full.klen = 256 := by decide

theorem witness_KputAppendsKeyByte_last :
    ({ full with klen := 255 } : State).cause = 0 ∧ ({ full with klen := 255 } : State).klen ≠ 256 := by decide

theorem witness_KputLeavesStreamAlone :
    streaming.cause = 0 ∧ streaming.klen ≠ 256 ∧ (∃ t, exec (.kput 0x57) streaming = .next t) ∧
      (∃ u, exec .next streaming = .next u) ∧ streaming.rdy = true :=
  ⟨by decide, by decide, ⟨_, execKput_run (by decide) (by decide) _⟩, streaming_next, by decide⟩

theorem witness_KputFrame : (∃ t, exec (.kput 0x4B) keyLoaded = .next t) ∧ (∃ t, exec (.kput 0x4B) full = .next t) ∧
    ∃ t, exec (.kput 0x4B) faulted = .next t := ⟨⟨_, rfl⟩, ⟨_, rfl⟩, ⟨_, rfl⟩⟩

theorem witness_KsaBuildsCipherState_empty : State.reset.cause = 0 ∧ State.reset.klen = 0 := by decide

theorem witness_KsaBuildsCipherState :
    keyLoaded.cause = 0 ∧ keyLoaded.klen ≠ 0 ∧
      ∃ key : Nat → Byte, ∀ n, n < keyLoaded.klen.toNat → keyLoaded.K.read (BitVec.ofNat 8 n) = some (key n) := by
  refine ⟨by decide, by decide, fun n => if n = 0 then 0x4B else if n = 1 then 0x65 else 0x79, fun n hn => ?_⟩
  have : n < 3 := hn
  interval_cases n <;> decide

/-- A key of 256 bytes, the longest. -/
theorem witness_KsaBuildsCipherState_longest :
    ∀ n : Nat, n < full.klen.toNat → Memory.identity.read (BitVec.ofNat 8 n) = some (BitVec.ofNat 8 n) :=
  fun _ _ => Memory.identity_holds _

/-- The keys `00` and `00 00` have the same expanded key (R104). -/
theorem witness_KsaDependsOnExpandedKeyOnly :
    ∃ s t : State, s.cause = 0 ∧ t.cause = 0 ∧ s.klen ≠ 0 ∧ t.klen ≠ 0 ∧ s.klen ≠ t.klen ∧
      (∀ r, r < 256 → s.K.read (keyIndex r s.klen) = t.K.read (keyIndex r t.klen)) ∧ ∃ s', exec .ksa s = .next s' := by
  let s : State := { State.reset with K := [(0, 0)], klen := 1 }
  let t : State := { State.reset with K := [(0, 0), (1, 0)], klen := 2 }
  have hs : KeyHeld s.K s.klen := fun n hn => by
    have : n < 1 := hn
    interval_cases n
    decide
  obtain ⟨c, hc⟩ := keySchedule_of_keyHeld (by decide) hs
  refine ⟨s, t, rfl, rfl, by decide, by decide, by decide, fun r _ => ?_, _, execKsa_run rfl (by decide) hc⟩
  obtain ⟨n, hn, -, he⟩ := keyIndex_eq (r := r) (klen := s.klen) (by decide)
  obtain ⟨m, hm, -, he'⟩ := keyIndex_eq (r := r) (klen := t.klen) (by decide)
  have h1 : n < 1 := hn
  have h2 : m < 2 := hm
  rw [he, he']
  interval_cases n
  interval_cases m <;> rfl

theorem witness_KsaForgetsEarlierState :
    keyLoaded.cause = 0 ∧ streaming.cause = 0 ∧ keyLoaded.klen ≠ 0 ∧ streaming.klen = keyLoaded.klen ∧
      (∀ n, n < keyLoaded.klen.toNat → streaming.K.read (BitVec.ofNat 8 n) = keyLoaded.K.read (BitVec.ofNat 8 n)) ∧
      (∃ s', exec .ksa keyLoaded = .next s') ∧ ∃ t', exec .ksa streaming = .next t' := by
  refine ⟨by decide, by decide, by decide, by decide, fun _ _ => rfl, keyLoaded_ksa, ?_⟩
  obtain ⟨c, hc⟩ := keySchedule_of_keyHeld (by decide) keyLoaded_held
  exact ⟨_, execKsa_run (s := streaming) (by decide) (by decide) hc⟩

theorem witness_KsaFrame : (∃ t, exec .ksa keyLoaded = .next t) ∧ (∃ t, exec .ksa State.reset = .next t) ∧
    ∃ t, exec .ksa faulted = .next t := ⟨keyLoaded_ksa, ⟨_, rfl⟩, ⟨_, rfl⟩⟩

theorem witness_NextStepsStream_notReady : keyLoaded.cause = 0 ∧ keyLoaded.rdy = false := by decide

theorem witness_NextStepsStream : streaming.cause = 0 ∧ streaming.rdy = true ∧ Holds streaming.S (fun a => a) :=
  ⟨by decide, by decide, Memory.identity_holds⟩

theorem witness_XorbStepsStream_notReady : keyLoaded.cause = 0 ∧ keyLoaded.rdy = false := by decide

theorem witness_XorbStepsStream_complement :
    ∃ t : State, exec .next keyStream = .next t ∧ t.responses = keyStream.responses ++ [⟨0, (0xEB : Byte).setWidth 16⟩] :=
  ⟨{ keyStream with S := [(1, 0x4E), (51, 0x33), (129, 0xEB)], i := 1, j := 51, responses := [⟨0, 0x00EB⟩] }, rfl, rfl⟩

theorem witness_XorbStepsStream : streaming.cause = 0 ∧ streaming.rdy = true ∧ Holds streaming.S (fun a => a) :=
  witness_NextStepsStream

theorem witness_StreamFrame : (∃ t, exec .next streaming = .next t) ∧ (∃ t, exec (.xorb 0xFF) streaming = .next t) ∧
    (∃ t, exec .next keyLoaded = .next t) ∧ ∃ t, exec (.xorb 0xFF) faulted = .next t :=
  ⟨streaming_next, streaming_xorb _, ⟨_, rfl⟩, ⟨_, rfl⟩⟩

theorem witness_CursorCountsSteps : streaming.cause = 0 ∧ streaming.rdy = true ∧ streaming.S.IsPerm :=
  ⟨by decide, by decide, Memory.identity_isPerm⟩

theorem witness_MemoryAccess_write : (0xFF : Byte) ≠ 0x00 := by decide

theorem witness_MemoryAccess_swap :
    Memory.identity.read 0x00 = some 0x00 ∧ Memory.identity.read 0xFF = some 0xFF :=
  ⟨Memory.identity_holds _, Memory.identity_holds _⟩

theorem witness_FaultEntryIsPrecise_illegal : keyLoaded.cause = 0 ∧ ∃ why, decode 0x0300 = .illegal why := ⟨by decide, _, rfl⟩

theorem witness_FaultEntryIsPrecise_kput : full.cause = 0 ∧ (∃ b, decode 0x10AA = .command (.kput b)) ∧ full.klen = 256 :=
  ⟨by decide, ⟨0xAA, by decide⟩, by decide⟩

theorem witness_FaultEntryIsPrecise_ksa : State.reset.cause = 0 ∧ decode 0x1100 = .command .ksa ∧ State.reset.klen = 0 := by decide

theorem witness_FaultEntryIsPrecise_stream :
    keyLoaded.cause = 0 ∧ decode 0x2000 = .command .next ∧ decode 0x2141 = .command (.xorb 0x41) ∧ keyLoaded.rdy = false := by decide

theorem witness_IllegalWordRaisesCodeOne :
    State.reset.cause = 0 ∧ ∀ row ∈ opcodeTable, (0x0101 : CmdWord) &&& row.mask ≠ row.pattern := by decide

theorem witness_RefusedWhileFaulted : faulted.cause ≠ 0 ∧ (0x0101 : CmdWord) ≠ 0x0100 ∧ (0x0101 : CmdWord) ≠ 0x0200 := by decide

theorem witness_FirstCauseIsKept : faulted.cause ≠ 0 ∧ (0x0100 : CmdWord) ∉ [0x1100, 0x0101, 0x0200, 0x2000] := by decide

theorem witness_OnlyResetLeavesFault : faulted.cause ≠ 0 ∧
    ∃ t, execEvent (.command 0x0100) faulted = .next t ∧ t.cause = 0 := ⟨by decide, _, rfl, rfl⟩

theorem witness_HardwareResetWins :
    ({ keyLoaded with inputs := [.resetDuring 0x1100, .command 0x0200] } : State).inputs =
      .resetDuring 0x1100 :: [.command 0x0200] := rfl

theorem witness_ReadyFlagRule_ksa : (∃ t, exec .ksa keyLoaded = .next t) ∧ keyLoaded.cause = 0 ∧ keyLoaded.klen ≠ 0 :=
  ⟨keyLoaded_ksa, by decide, by decide⟩

theorem witness_ReadyFlagRule_reset : ∃ t, execEvent .reset streaming = .next t := ⟨_, rfl⟩

theorem witness_ReadyFlagRule_other :
    (∃ t, execWord 0x1100 faulted = .next t) ∧ decode 0x1100 ≠ .command .rst ∧
      ¬ (decode 0x1100 = .command .ksa ∧ faulted.cause = 0 ∧ faulted.klen ≠ 0) := ⟨⟨_, rfl⟩, by decide, by decide⟩

theorem witness_CauseLatchRule_fault :
    ∃ t, execWord 0x2000 keyLoaded = .next t ∧ keyLoaded.cause = 0 ∧ t.cause ≠ 0 := ⟨_, rfl, by decide, by decide⟩

theorem witness_CauseLatchRule_kept :
    (∃ t, execWord 0x0200 faulted = .next t) ∧ faulted.cause ≠ 0 ∧ decode 0x0200 ≠ .command .rst :=
  ⟨⟨_, rfl⟩, by decide, by decide⟩

theorem witness_FirstCommandsAfterReset : ∃ why, decode 0xFFFF = .illegal why := ⟨_, rfl⟩

theorem witness_StepKeepsInvariant : Inv streaming ∧ ∃ t, step streaming = .next t := ⟨streaming_inv, _, rfl⟩

theorem witness_InvariantStepNeverStops : Inv { full with K := Memory.identity } := full_inv

theorem witness_ReachableStateRule :
    ∃ t, Host.Core.run core 1 { State.reset with inputs := [.command 0x104B] } = .next t := ⟨_, core_run_next rfl⟩

theorem witness_LifeClassTable : Inv streaming ∧ lifeClass streaming = .readyKeying := ⟨streaming_inv, by decide⟩

theorem witness_LifeClassTable_full : Inv { full with K := Memory.identity } ∧
    (({ full with K := Memory.identity } : State).klen == 256) = true := ⟨full_inv, by decide⟩

/-- Two states that agree although their unread parts differ. -/
theorem witness_UnspecifiedValuesUnobservable :
    ∃ s t : State, s ≠ t ∧ Agree s t ∧ ∃ s', execWord 0x0200 s = .next s' := by
  refine ⟨keyLoaded, { keyLoaded with i := 7, S := [(0, 1)] }, by decide, ⟨rfl, rfl, rfl, fun _ _ => rfl, fun h => ?_⟩, _, rfl⟩
  exact absurd h (by decide)

theorem witness_BlocksAreIndependent :
    ∃ cs ds, (0 : Nat) ≠ 1 ∧ stepBlock 0 [keyLoaded, faulted] = some (.next cs) ∧ stepBlock 1 cs = some (.next ds) :=
  ⟨_, _, by decide, rfl, rfl⟩

theorem reset_canStartKey : CanStartKey State.reset := ⟨rfl, rfl⟩

theorem witness_InitBuildsKeyState : CanStartKey State.reset ∧ 1 ≤ ([0x4B] : List Byte).length ∧
    ([0x4B] : List Byte).length ≤ 256 := ⟨reset_canStartKey, by decide, by decide⟩

theorem witness_InitBuildsKeyState_longest : 1 ≤ (List.replicate 256 (0x4B : Byte)).length ∧
    (List.replicate 256 (0x4B : Byte)).length ≤ 256 := by rw [List.length_replicate]; decide

theorem witness_InitRejectsBadLength : CanStartKey { streaming with klen := 0 } ∧
    256 < (List.replicate 257 (0x4B : Byte)).length :=
  ⟨⟨by decide, by decide⟩, by rw [List.length_replicate]; decide⟩

theorem witness_LeftoverKeyBytesAreUsed :
    let old : List Byte := [0x4B, 0x65, 0x79]
    keyLoaded.cause = 0 ∧ keyLoaded.klen = BitVec.ofNat 9 old.length ∧ 1 ≤ (old ++ [0x00]).length ∧
      (old ++ [0x00]).length ≤ 256 ∧
      ∀ n b, old[n]? = some b → keyLoaded.K.read (BitVec.ofNat 8 n) = some b := by
  refine ⟨by decide, by decide, by decide, by decide, fun n b h => ?_⟩
  have hn : n < 3 := (List.getElem?_eq_some_iff.1 h).1
  rw [← h]
  interval_cases n <;> decide

theorem witness_KeystreamGivesNextBytes :
    ∃ (key zs : List Byte) (c : CipherState) (s : State), 1 ≤ key.length ∧ key.length ≤ 256 ∧ ksaOf key = some c ∧
      keystream 0 c = some (zs, cipher s) ∧ s.cause = 0 ∧ s.rdy = true := by
  have h : KeyHeld (Memory.ofBytes [0x4B]) 1 := fun n hn => by
    have : n < 1 := hn
    interval_cases n
    decide
  obtain ⟨c, hc⟩ := keySchedule_of_keyHeld (by decide) h
  exact ⟨[0x4B], [], c, installCipher State.reset c, by decide, by decide, hc, rfl, rfl, rfl⟩

theorem witness_KeystreamNotReady : keyLoaded.cause = 0 ∧ keyLoaded.rdy = false := by decide

theorem witness_EncryptXorsKeystream : CanStartKey { streaming with klen := 0 } ∧ 1 ≤ ([0x00] : List Byte).length ∧
    ([0x00] : List Byte).length ≤ 256 := ⟨⟨by decide, by decide⟩, by decide, by decide⟩

theorem witness_EncryptWithEmptyKey : CanStartKey { streaming with klen := 0 } := ⟨by decide, by decide⟩

theorem witness_EncryptWithLongKey : CanStartKey { streaming with klen := 0 } ∧
    256 < (List.replicate 257 (0x4B : Byte)).length :=
  ⟨⟨by decide, by decide⟩, by rw [List.length_replicate]; decide⟩

theorem witness_EncryptTwiceGivesPlaintext : CanStartKey State.reset ∧ CanStartKey { streaming with klen := 0 } ∧
    1 ≤ ([0x4B, 0x65, 0x79] : List Byte).length ∧ ([0x4B, 0x65, 0x79] : List Byte).length ≤ 256 :=
  ⟨reset_canStartKey, ⟨by decide, by decide⟩, by decide, by decide⟩

theorem witness_SameKeySameKeystream : CanStartKey State.reset ∧ CanStartKey { streaming with klen := 0 } ∧
    1 ≤ ([0x01] : List Byte).length ∧ ([0x01] : List Byte).length ≤ 256 :=
  ⟨reset_canStartKey, ⟨by decide, by decide⟩, by decide, by decide⟩

theorem witness_KeystreamIgnoresData :
    ∃ t, runWords ([0x0200] ++ encode (.xorb 0x50) :: [0x0200]) keyStream = .next t := ⟨_, rfl⟩

end Sys2Proof.Tests
end

/-! ## The state: STATUS, RDY, CAUSE, the invariant and the unspecified values (spec/10_state.md)

One relation, `Answers`, says everything that a command word can do to a block; `execWord_eq_next_iff` ties it to the model.
What follows about words is a case analysis on it: the invariant (R32), the flags (R27, R28), and that two states which agree
on what the rules can read stay in agreement (R34). -/

section
namespace Sys2Proof.Machine

/-! ### The fields of `STATUS` -/

/-- Each bit of `STATUS` is a bit of one of its five parts (R29). -/
theorem status_getLsbD (s : State) (k : Nat) :
    (status s).getLsbD k =
      if k < 9 then s.klen.getLsbD k
      else if k - 9 < 1 then false
      else if k - 9 - 1 < 1 then (BitVec.ofBool s.rdy).getLsbD (k - 9 - 1)
      else if k - 9 - 1 - 1 < 1 then (BitVec.ofBool (flt s)).getLsbD (k - 9 - 1 - 1)
      else s.cause.getLsbD (k - 9 - 1 - 1 - 1) := by
  change (s.cause ++ BitVec.ofBool (flt s) ++ BitVec.ofBool s.rdy ++ 0#1 ++ s.klen).getLsbD k = _
  simp only [BitVec.getLsbD_append, BitVec.getLsbD_zero]

theorem status_cause (s : State) : (status s).extractLsb' 12 4 = s.cause := by
  ext k hk
  rw [BitVec.getElem_extractLsb', status_getLsbD, if_neg (by omega), if_neg (by omega), if_neg (by omega),
    if_neg (by omega), show 12 + k - 9 - 1 - 1 - 1 = k by omega, BitVec.getLsbD_eq_getElem hk]

theorem status_flt (s : State) : (status s).getLsbD 11 = flt s := by
  rw [status_getLsbD]
  simp

theorem status_rdy (s : State) : (status s).getLsbD 10 = s.rdy := by
  rw [status_getLsbD]
  simp

theorem status_reserved (s : State) : (status s).getLsbD 9 = false := by
  rw [status_getLsbD]
  simp

theorem status_klen (s : State) : (status s).extractLsb' 0 9 = s.klen := extractLow_append _ _

/-- `STATUS` is a view of `CAUSE`, `RDY` and `KLEN` and of nothing else (R29). -/
theorem status_congr {s t : State} (hc : s.cause = t.cause) (hr : s.rdy = t.rdy) (hk : s.klen = t.klen) :
    status s = status t := by
  simp only [status, flt, hc, hr, hk]

theorem flt_eq_true_iff (s : State) : flt s = true ↔ s.cause ≠ 0 := bne_iff_ne

/-! ### The key buffer and the codes of faults -/

theorem kputIndex_eq (klen : BitVec 9) : kputIndex klen = BitVec.ofNat 8 klen.toNat := by
  apply BitVec.eq_of_toNat_eq
  simp [kputIndex]

/-- After a `KPUT`, an index below the new `KLEN` is the one just written or was below the old `KLEN` (R26, R100). -/
theorem lt_klen_of_ne_kputIndex {klen : BitVec 9} {n : Nat} (hn : n < (klen + 1).toNat)
    (hne : BitVec.ofNat 8 n ≠ kputIndex klen) : n < klen.toNat := by
  have hne' : n ≠ klen.toNat := fun e => hne (by rw [kputIndex_eq, e])
  have hle : (klen + 1).toNat ≤ klen.toNat + 1 := by
    rw [BitVec.toNat_add]
    exact Nat.mod_le _ _
  omega

theorem klen_succ_le {klen : BitVec 9} (hle : klen.toNat ≤ 256) (hne : klen ≠ 256) : (klen + 1).toNat ≤ 256 := by
  bv_omega

theorem KeyHeld.write {K : Memory} {klen : BitVec 9} (h : KeyHeld K klen) (b : Byte) :
    KeyHeld (K.write (kputIndex klen) b) (klen + 1) := by
  intro n hn
  rw [Memory.read_write]
  split
  · rfl
  next hne => exact h n (lt_klen_of_ne_kputIndex hn hne)

theorem causeCode_toNat_le (c : FaultCause) : (causeCode c).toNat ≤ 4 := by
  cases c <;> decide

theorem cause_eq_of_toNat_le : ∀ c : ErrCode, c.toNat ≤ 4 → c = 0 ∨ c = 1 ∨ c = 2 ∨ c = 3 ∨ c = 4 := by
  decide

/-! ### What a command word can do -/

/-- What `NEXT` and `XORB` make of the keystream byte; no other word is a stream command (R121, R122). -/
def streamData : Decoded → Option (Byte → Byte)
  | .command .next => some (fun z => z)
  | .command (.xorb b) => some (fun z => z ^^^ b)
  | _ => none

theorem streamData_eq_some {d : Decoded} {data : Byte → Byte} (h : streamData d = some data) :
    ∃ i, d = .command i ∧ ∀ s, exec i s = streamStep s data := by
  match d, h with
  | .command .next, h => exact ⟨_, rfl, fun _ => Option.some.inj h ▸ rfl⟩
  | .command (.xorb _), h => exact ⟨_, rfl, fun _ => Option.some.inj h ▸ rfl⟩

/-- The faults of a block that is not faulted: which decoded word raises which, in which state (R171). -/
inductive Raises : Decoded → State → FaultCause → Prop where
  | illegal {s : State} (why : IllegalWord) : Raises (.illegal why) s .illegal
  | emptyKey {s : State} (hk : s.klen = 0) : Raises (.command .ksa) s .emptyKey
  | keyOverflow {s : State} (b : Byte) (hk : s.klen = 256) : Raises (.command (.kput b)) s .keyOverflow
  | notReady {d : Decoded} {s : State} {data : Byte → Byte} (hd : streamData d = some data) (hr : s.rdy = false) :
      Raises d s .notReady

/-- The next states of a decoded word: the success of each command, a fault, and the refusal while faulted (R170). -/
inductive Answers : Decoded → State → State → Prop where
  | rst (s : State) : Answers (.command .rst) s (respond (resetBlock s) okCode 0)
  | stat (s : State) : Answers (.command .stat) s (respond s okCode (status s))
  | kput {s : State} (b : Byte) (hc : s.cause = 0) (hk : s.klen ≠ 256) :
      Answers (.command (.kput b)) s (respond (pushKey s b) okCode 0)
  | ksa {s : State} {c : CipherState} (hc : s.cause = 0) (hk : s.klen ≠ 0) (hs : keySchedule s.K s.klen = some c) :
      Answers (.command .ksa) s (respond (installCipher s c) okCode 0)
  | stream {d : Decoded} {s : State} {data : Byte → Byte} {z : Byte} {c : CipherState} (hd : streamData d = some data)
      (hc : s.cause = 0) (hr : s.rdy = true) (hp : prga (cipher s) = some (z, c)) :
      Answers d s (respond (setCipher s c) okCode (zext16 (data z)))
  | raised {d : Decoded} {s : State} {c : FaultCause} (hc : s.cause = 0) (h : Raises d s c) :
      Answers d s (raiseFault s c)
  | refused {d : Decoded} {s : State} (hc : s.cause ≠ 0) (hrst : d ≠ .command .rst) (hstat : d ≠ .command .stat) :
      Answers d s (refuseFaulted s)

theorem answers_of_streamStep {i : Instr} {s t : State} {data : Byte → Byte} (hd : streamData (.command i) = some data)
    (h : streamStep s data = .next t) : Answers (.command i) s t := by
  rcases streamStep_next h with ⟨hc, rfl⟩ | ⟨hc, hr, rfl⟩ | ⟨hc, hr, z, c, hp, rfl⟩
  · exact .refused hc (by rintro ⟨⟩; cases hd) (by rintro ⟨⟩; cases hd)
  · exact .raised hc (.notReady hd hr)
  · exact .stream hd hc hr hp

theorem answers_of_exec {i : Instr} {s t : State} (h : exec i s = .next t) : Answers (.command i) s t := by
  cases i with
  | rst => cases h; exact .rst s
  | stat => cases h; exact .stat s
  | kput b =>
    rcases execKput_next h with ⟨hc, rfl⟩ | ⟨hc, hk, rfl⟩ | ⟨hc, hk, rfl⟩
    · exact .refused hc nofun nofun
    · exact .raised hc (.keyOverflow b hk)
    · exact .kput b hc hk
  | ksa =>
    rcases execKsa_next h with ⟨hc, rfl⟩ | ⟨hc, hk, rfl⟩ | ⟨hc, hk, c, hs, rfl⟩
    · exact .refused hc nofun nofun
    · exact .raised hc (.emptyKey hk)
    · exact .ksa hc hk hs
  | next => exact answers_of_streamStep rfl h
  | xorb b => exact answers_of_streamStep rfl h

theorem answers_of_execWord {w : CmdWord} {s t : State} (h : execWord w s = .next t) : Answers (decode w) s t := by
  rcases decode_cases w with ⟨i, hd⟩ | ⟨why, hd⟩
  · rw [execWord_command hd] at h
    exact hd ▸ answers_of_exec h
  · rw [execWord_illegal hd] at h
    rcases execIllegal_next h with ⟨hc, rfl⟩ | ⟨hc, rfl⟩
    · exact .refused hc (by simp [hd]) (by simp [hd])
    · exact hd ▸ .raised hc (.illegal why)

theorem execWord_of_streamData {w : CmdWord} {data : Byte → Byte} (hd : streamData (decode w) = some data) (s : State) :
    execWord w s = streamStep s data := by
  obtain ⟨i, hw, hi⟩ := streamData_eq_some hd
  rw [execWord_command hw, hi]

theorem execWord_of_raises {w : CmdWord} {s : State} {c : FaultCause} (hc : s.cause = 0) (h : Raises (decode w) s c) :
    execWord w s = .next (raiseFault s c) := by
  generalize hd : decode w = d at h
  cases h with
  | illegal why => rw [execWord_illegal hd, execIllegal, unlessFaulted_ok hc]
  | emptyKey hk => exact (execWord_command hd s).trans (execKsa_empty hc hk)
  | keyOverflow b hk => exact (execWord_command hd s).trans (execKput_full hc hk b)
  | notReady hs hr => rw [execWord_of_streamData (hd ▸ hs), streamStep_notReady hc hr]

theorem execWord_of_faulted {w : CmdWord} {s : State} (hc : s.cause ≠ 0) (hrst : decode w ≠ .command .rst)
    (hstat : decode w ≠ .command .stat) : execWord w s = .next (refuseFaulted s) := by
  rcases decode_cases w with ⟨i, hd⟩ | ⟨why, hd⟩
  · rw [execWord_command hd]
    cases i with
    | rst => exact absurd hd hrst
    | stat => exact absurd hd hstat
    | kput b => exact execKput_faulted hc b
    | ksa => exact execKsa_faulted hc
    | next => exact streamStep_faulted hc _
    | xorb b => exact streamStep_faulted hc _
  · rw [execWord_illegal hd, execIllegal, unlessFaulted_faulted hc]

theorem execWord_of_answers {w : CmdWord} {s t : State} (h : Answers (decode w) s t) : execWord w s = .next t := by
  generalize hd : decode w = d at h
  cases h with
  | rst => exact execWord_command hd s
  | stat => exact execWord_command hd s
  | kput b hc hk => exact (execWord_command hd s).trans (execKput_run hc hk b)
  | ksa hc hk hs => exact (execWord_command hd s).trans (execKsa_run hc hk hs)
  | stream hs hc hr hp => rw [execWord_of_streamData (hd ▸ hs), streamStep_run hc hr hp]
  | raised hc h => exact execWord_of_raises hc (hd ▸ h)
  | refused hc hrst hstat => exact execWord_of_faulted hc (hd ▸ hrst) (hd ▸ hstat)

/-- `Answers` is what the block does with a word. -/
theorem execWord_eq_next_iff {w : CmdWord} {s t : State} : execWord w s = .next t ↔ Answers (decode w) s t :=
  ⟨answers_of_execWord, execWord_of_answers⟩

/-! ### The invariant -/

/-- The invariant does not look at the host's side of the ports. -/
theorem Inv.withInputs {s : State} (h : Inv s) (events : List HostEvent) : Inv { s with inputs := events } :=
  ⟨h.klen_le, h.cause_le, h.S_wf, h.K_wf, h.key_held, h.perm⟩

theorem Inv.respond {s : State} (h : Inv s) (err : ErrCode) (data : BitVec 16) : Inv (respond s err data) :=
  ⟨h.klen_le, h.cause_le, h.S_wf, h.K_wf, h.key_held, h.perm⟩

theorem Inv.raiseFault {s : State} (h : Inv s) (c : FaultCause) : Inv (raiseFault s c) :=
  ⟨h.klen_le, causeCode_toNat_le c, h.S_wf, h.K_wf, h.key_held, h.perm⟩

/-- A state with empty memories, `KLEN`, `CAUSE` and `RDY` 0 meets the invariant, whatever its cursors (R33). -/
theorem inv_of_empty {s : State} (hS : s.S = []) (hK : s.K = []) (hk : s.klen = 0) (hc : s.cause = 0)
    (hr : s.rdy = false) : Inv s where
  klen_le := by simp [hk]
  cause_le := by simp [hc]
  S_wf := hS ▸ Memory.wf_nil
  K_wf := hK ▸ Memory.wf_nil
  key_held n hn := by simp [hk] at hn
  perm h := by simp [hr] at h

theorem inv_reset : Inv State.reset := inv_of_empty rfl rfl rfl rfl rfl

theorem inv_resetBlock (s : State) : Inv (resetBlock s) := inv_of_empty rfl rfl rfl rfl rfl

theorem Inv.pushKey {s : State} (h : Inv s) (hk : s.klen ≠ 256) (b : Byte) : Inv (pushKey s b) where
  klen_le := klen_succ_le h.klen_le hk
  cause_le := h.cause_le
  S_wf := h.S_wf
  K_wf := Memory.wf_write _ _ h.K_wf
  key_held := h.key_held.write b
  perm := h.perm

theorem Inv.setCipher {s : State} {c : CipherState} (h : Inv s) (hw : c.S.wf) (hp : c.S.IsPerm) : Inv (setCipher s c) :=
  ⟨h.klen_le, h.cause_le, hw, h.K_wf, h.key_held, fun _ => hp⟩

theorem Inv.installCipher {s : State} {c : CipherState} (h : Inv s) (hw : c.S.wf) (hp : c.S.IsPerm) :
    Inv (installCipher s c) where
  klen_le := by simp
  cause_le := h.cause_le
  S_wf := hw
  K_wf := h.K_wf
  key_held n hn := by simp at hn
  perm _ := hp

theorem Answers.inv {d : Decoded} {s t : State} (h : Answers d s t) (hi : Inv s) : Inv t := by
  cases h with
  | rst => exact (inv_resetBlock s).respond _ _
  | stat => exact hi.respond _ _
  | kput b _ hk => exact (hi.pushKey hk b).respond _ _
  | ksa _ _ hs => exact (hi.installCipher (keySchedule_wf hs) (keySchedule_isPerm hs)).respond _ _
  | stream _ _ hr hp => exact (hi.setCipher (prga_wf hi.S_wf hp) (prga_isPerm (hi.perm hr) hp)).respond _ _
  | raised => exact hi.raiseFault _
  | refused => exact hi.respond _ _

theorem execEvent_inv {e : HostEvent} {s t : State} (hi : Inv s) (h : execEvent e s = .next t) : Inv t := by
  cases e with
  | command w => exact (execWord_eq_next_iff.1 h).inv hi
  | reset => cases h; exact inv_resetBlock s
  | resetDuring w => cases h; exact inv_resetBlock s

/-- Everything a step can do: wait, or execute the host's next event (R170, R202). -/
theorem step_next {s t : State} (h : step s = .next t) :
    (s.inputs = [] ∧ t = s) ∨
    ∃ e rest, s.inputs = e :: rest ∧ execEvent e { s with inputs := rest } = .next t := by
  cases hin : s.inputs with
  | nil =>
    simp only [step, stepEvent, takeEvent, hin, Host.Outcome.next.injEq] at h
    exact .inl ⟨rfl, h.symm⟩
  | cons e rest =>
    simp only [step, stepEvent, takeEvent, hin] at h
    exact .inr ⟨e, rest, rfl, h⟩

theorem step_inv {s t : State} (hi : Inv s) (h : step s = .next t) : Inv t := by
  rcases step_next h with ⟨-, rfl⟩ | ⟨e, rest, -, he⟩
  · exact hi
  · exact execEvent_inv (hi.withInputs rest) he

/-- What every step keeps holds after any number of steps. -/
theorem core_run_induct {P : State → Prop} (hstep : ∀ s t, P s → step s = .next t → P t) (n : Nat) {s t : State}
    (h0 : P s) (h : Host.Core.run core n s = .next t) : P t := by
  induction n generalizing s with
  | zero => cases h; exact h0
  | succ n ih =>
    cases hs : step s with
    | next u => exact ih (hstep s u h0 hs) (core_run_next hs ▸ h)
    | fault f => rw [core_run_fault hs] at h; cases h
    | refused r => rw [core_run_refused hs] at h; cases h

/-- Settles O37: both memories are empty and the registers the invariant bounds are 0. -/
theorem resetMeetsInvariant : Obligations.ResetMeetsInvariant := inv_reset

/-- Settles O38, by the cases of `Answers` for a word and by `inv_resetBlock` for the two kinds of hardware reset. -/
theorem stepKeepsInvariant : Obligations.StepKeepsInvariant := fun _ _ => step_inv

/-- Settles O40: R32's clauses (a) to (c) are the invariant's, and (d) and (e) hold of `STATUS` in every state. -/
theorem reachableStateRule : Obligations.ReachableStateRule := by
  intro events n t h
  have hi : Inv t := core_run_induct (fun _ _ => step_inv) n (inv_reset.withInputs events) h
  refine ⟨hi.klen_le, cause_eq_of_toNat_le _ hi.cause_le, hi.perm, status_reserved t, ?_⟩
  rw [status_flt, status_cause]
  exact flt_eq_true_iff t

/-! ### Agreement on what the rules can read -/

/-- Two CipherStates that no rule can tell apart: equal cursors and, at every index, the same byte of `S`. -/
def SameCipher (c c' : CipherState) : Prop := c.i = c'.i ∧ c.j = c'.j ∧ ∀ a, c.S.read a = c'.S.read a

theorem Memory.read_write_congr {m m' : Memory} (h : ∀ a, m.read a = m'.read a) (a v x : Byte) :
    (m.write a v).read x = (m'.write a v).read x := by
  rw [Memory.read_write, Memory.read_write, h]

theorem Memory.swap_congr {m m' n : Memory} {a b : Byte} (h : ∀ x, m.read x = m'.read x) (hs : m.swap a b = some n) :
    ∃ n', m'.swap a b = some n' ∧ ∀ x, n.read x = n'.read x := by
  obtain ⟨u, v, hu, hv, rfl⟩ := Memory.swap_eq_some.1 hs
  exact ⟨_, Memory.swap_eq_some.2 ⟨u, v, h a ▸ hu, h b ▸ hv, rfl⟩,
    Memory.read_write_congr (Memory.read_write_congr h a v) b u⟩

/-- A PRGA step reads the cursors and bytes of `S` only, so it gives the same byte on CipherStates that read the same. -/
theorem prga_congr {c c' d : CipherState} {z : Byte} (h : SameCipher c c') (hp : prga c = some (z, d)) :
    ∃ d', prga c' = some (z, d') ∧ SameCipher d d' := by
  obtain ⟨hi, hj, hS⟩ := h
  obtain ⟨si, hsi, hdi, hdj, hs, a, b, ha, hb, hz⟩ := prga_eq_some hp
  obtain ⟨S', hs', hS'⟩ := Memory.swap_congr hS hs
  rw [hdi, hdj, hi, hj] at hs'
  rw [hi, hS] at hsi
  rw [hS', hdi, hi] at ha
  rw [hS', hdj, hj] at hb
  rw [hS'] at hz
  exact ⟨⟨S', nextI c'.i, nextJ c'.j si⟩, by simp [prga, hsi, hs', ha, hb, hz], hi ▸ hdi, hj ▸ hdj, hS'⟩

theorem sameCipher_of_agree {s t : State} (h : Agree s t) (hr : s.rdy = true) : SameCipher (cipher s) (cipher t) :=
  h.cipher hr

theorem Agree.status_eq {s t : State} (h : Agree s t) : status s = status t := status_congr h.cause h.rdy h.klen

/-- `KSA` reads the key below `KLEN` only (R53, R104). -/
theorem Agree.keySchedule_eq {s t : State} (h : Agree s t) (hk : s.klen ≠ 0) :
    keySchedule s.K s.klen = keySchedule t.K t.klen := by
  refine keySchedule_congr fun r _ => ?_
  obtain ⟨n, hn, -, he⟩ := keyIndex_eq (r := r) hk
  rw [← h.klen, he]
  exact h.key n hn

theorem Agree.respond {s t : State} (h : Agree s t) (err : ErrCode) (data : BitVec 16) :
    Agree (respond s err data) (respond t err data) :=
  ⟨h.rdy, h.cause, h.klen, h.key, h.cipher⟩

theorem Agree.raiseFault {s t : State} (h : Agree s t) (c : FaultCause) : Agree (raiseFault s c) (raiseFault t c) :=
  ⟨h.rdy, rfl, h.klen, h.key, h.cipher⟩

/-- Two blocks agree once both are reset, whatever their cursors hold (R33). -/
theorem agree_resetBlock (s t : State) : Agree (resetBlock s) (resetBlock t) :=
  ⟨rfl, rfl, rfl, fun _ _ => rfl, nofun⟩

theorem Agree.pushKey {s t : State} (h : Agree s t) (b : Byte) : Agree (pushKey s b) (pushKey t b) where
  rdy := h.rdy
  cause := h.cause
  klen := congrArg (· + 1) h.klen
  key n hn := by
    rw [pushKey_K, pushKey_K, ← h.klen, Memory.read_write, Memory.read_write]
    split
    · rfl
    next hne => exact h.key n (lt_klen_of_ne_kputIndex hn hne)
  cipher := h.cipher

theorem Agree.setCipher {s t : State} {c d : CipherState} (h : Agree s t) (hcd : SameCipher c d) :
    Agree (setCipher s c) (setCipher t d) :=
  ⟨h.rdy, h.cause, h.klen, h.key, fun _ => hcd⟩

theorem Agree.installCipher {s t : State} (h : Agree s t) (c : CipherState) :
    Agree (installCipher s c) (installCipher t c) :=
  ⟨rfl, h.cause, rfl, fun n hn => by simp at hn, fun _ => ⟨rfl, rfl, fun _ => rfl⟩⟩

/-- Which fault a word raises is read off what the states agree on. -/
theorem Raises.of_agree {d : Decoded} {s t : State} {c : FaultCause} (h : Raises d s c) (ha : Agree s t) : Raises d t c := by
  cases h with
  | illegal why => exact .illegal why
  | emptyKey hk => exact .emptyKey (ha.klen ▸ hk)
  | keyOverflow b hk => exact .keyOverflow b (ha.klen ▸ hk)
  | notReady hd hr => exact .notReady hd (ha.rdy ▸ hr)

/-- In a state that agrees, the word takes the same case of `Answers`, with the same response. -/
theorem Answers.of_agree {d : Decoded} {s t s' : State} (h : Answers d s s') (ha : Agree s t) :
    ∃ t' r, Answers d t t' ∧ s'.responses = s.responses ++ [r] ∧ t'.responses = t.responses ++ [r] ∧ Agree s' t' := by
  cases h with
  | rst => exact ⟨_, _, .rst t, rfl, rfl, (agree_resetBlock s t).respond _ _⟩
  | stat => exact ⟨_, _, .stat t, rfl, by rw [ha.status_eq]; rfl, ha.status_eq ▸ ha.respond _ _⟩
  | kput b hc hk =>
    exact ⟨_, _, .kput b (ha.cause ▸ hc) (ha.klen ▸ hk), rfl, rfl, (ha.pushKey b).respond _ _⟩
  | ksa hc hk hs =>
    have hs' := (ha.keySchedule_eq hk).symm.trans hs
    exact ⟨_, _, .ksa (ha.cause ▸ hc) (ha.klen ▸ hk) hs', rfl, rfl, (ha.installCipher _).respond _ _⟩
  | stream hd hc hr hp =>
    obtain ⟨c', hp', hsame⟩ := prga_congr (sameCipher_of_agree ha hr) hp
    exact ⟨_, _, .stream hd (ha.cause ▸ hc) (ha.rdy ▸ hr) hp', rfl, rfl, (ha.setCipher hsame).respond _ _⟩
  | raised hc h => exact ⟨_, _, .raised (ha.cause ▸ hc) (h.of_agree ha), rfl, rfl, ha.raiseFault _⟩
  | refused hc hrst hstat => exact ⟨_, _, .refused (ha.cause ▸ hc) hrst hstat, rfl, rfl, ha.respond _ _⟩

/-- Settles O42: the agreeing state takes the same case of `Answers`. -/
theorem unspecifiedValuesUnobservable : Obligations.UnspecifiedValuesUnobservable := by
  intro w s t s' ha h
  obtain ⟨t', r, ht, hs', ht', ha'⟩ := (execWord_eq_next_iff.1 h).of_agree ha
  exact ⟨t', r, execWord_eq_next_iff.2 ht, hs', ht', ha'⟩

/-! ### The cursor `i` -/

/-- `NEXT` in a ready block: one PRGA step, `i` advances by 1, and the block stays ready (R120, R121). -/
theorem exec_next_ready {s : State} (hc : s.cause = 0) (hr : s.rdy = true) (hp : s.S.IsPerm) :
    ∃ t, exec .next s = .next t ∧ t.i = s.i + 1 ∧ t.cause = 0 ∧ t.rdy = true ∧ t.S.IsPerm := by
  obtain ⟨z, c, hz⟩ := prga_of_isPerm (c := cipher s) hp
  obtain ⟨-, -, hi, -⟩ := prga_eq_some hz
  exact ⟨_, streamStep_run hc hr hz _, hi, hc, hr, prga_isPerm (c := cipher s) hp hz⟩

/-- Settles O26, by induction on the number of steps; the permutation is what lets each further step complete. -/
theorem cursorCountsSteps : Obligations.CursorCountsSteps := by
  intro n
  induction n with
  | zero => exact fun s hc hr _ => ⟨s, rfl, by simp, hc, hr⟩
  | succ n ih =>
    intro s hc hr hp
    obtain ⟨u, hu, hui, huc, hur, hup⟩ := exec_next_ready hc hr hp
    obtain ⟨t, ht, hti, htc, htr⟩ := ih u huc hur hup
    have hw : execWord (encode .next) s = .next u := (execWord_command rfl s).trans hu
    refine ⟨t, (runWords_cons_next hw).trans ht, ?_, htc, htr⟩
    rw [hti, hui, BitVec.add_assoc, BitVec.add_comm 1, BitVec.ofNat_add n 1]
    rfl

/-! ### The flag `RDY`, the latch `CAUSE` and `STATUS` -/

theorem execEvent_of_isReset {e : HostEvent} (he : e = .reset ∨ ∃ w, e = .resetDuring w) (s : State) :
    execEvent e s = .next (resetBlock s) := by
  rcases he with rfl | ⟨w, rfl⟩ <;> rfl

/-- A `KSA` that may run builds the CipherState, and a next state is the one it installs (R102). -/
theorem exec_ksa_next_run {s t : State} (h : exec .ksa s = .next t) (hc : s.cause = 0) (hk : s.klen ≠ 0) :
    ∃ c, t = respond (installCipher s c) okCode 0 := by
  rcases execKsa_next h with ⟨hc', -⟩ | ⟨-, hk', -⟩ | ⟨-, -, c, -, ht⟩
  · exact absurd hc hc'
  · exact absurd hk' hk
  · exact ⟨c, ht⟩

/-- Only `RST` and a `KSA` that runs write `RDY` (R27). -/
theorem Answers.rdy_eq {d : Decoded} {s t : State} (h : Answers d s t) (hrst : d ≠ .command .rst)
    (hksa : ¬ (d = .command .ksa ∧ s.cause = 0 ∧ s.klen ≠ 0)) : t.rdy = s.rdy := by
  cases h with
  | rst => exact absurd rfl hrst
  | ksa hc hk _ => exact absurd ⟨rfl, hc, hk⟩ hksa
  | stat | kput | stream | raised | refused => rfl

/-- A word that leaves `CAUSE` not 0 in a block that was not faulted has raised a fault. -/
theorem Answers.eq_raiseFault {d : Decoded} {s t : State} (h : Answers d s t) (hs : s.cause = 0) (ht : t.cause ≠ 0) :
    ∃ c, t = raiseFault s c := by
  cases h with
  | rst => exact absurd rfl ht
  | stat | kput | ksa | stream | refused => exact absurd hs ht
  | raised => exact ⟨_, rfl⟩

/-- While the block is faulted, only `RST` changes `CAUSE` (R28). -/
theorem Answers.cause_eq {d : Decoded} {s t : State} (h : Answers d s t) (hs : s.cause ≠ 0) (hrst : d ≠ .command .rst) :
    t.cause = s.cause := by
  cases h with
  | rst => exact absurd rfl hrst
  | raised hc _ => exact absurd hc hs
  | stat | kput | ksa | stream | refused => rfl

/-- Settles O34: of the cases of `Answers` only `rst` and `ksa` write `RDY`. -/
theorem readyFlagRule : Obligations.ReadyFlagRule := by
  refine ⟨rfl, ?_, ?_, ?_, ?_, ?_⟩
  · intro s t h hc hk
    obtain ⟨c, rfl⟩ := exec_ksa_next_run h hc hk
    rfl
  · rintro s t ⟨⟩
    rfl
  · intro e s t he h
    cases (execEvent_of_isReset he s).symm.trans h
    rfl
  · intro w s t h hrst hksa
    exact (execWord_eq_next_iff.1 h).rdy_eq hrst hksa
  · rintro i s (rfl | ⟨b, rfl⟩) hc hr <;> exact streamStep_notReady hc hr _

/-- Settles O35: of the cases of `Answers` only `raised` and `rst` write `CAUSE`. -/
theorem causeLatchRule : Obligations.CauseLatchRule := by
  refine ⟨rfl, ?_, ?_, ?_, ?_, flt_eq_true_iff⟩
  · intro w s t h hs ht
    obtain ⟨c, rfl⟩ := (execWord_eq_next_iff.1 h).eq_raiseFault hs ht
    exact ⟨causeCode_toNat_le c, rfl⟩
  · intro w s t h hs hrst
    exact (execWord_eq_next_iff.1 h).cause_eq hs hrst
  · rintro s t ⟨⟩
    rfl
  · intro e s t he h
    cases (execEvent_of_isReset he s).symm.trans h
    rfl

/-- Settles O14: the fields in their places, then three readings of `STATUS`, each from `CAUSE`, `RDY` and `KLEN`. -/
theorem statusFields : Obligations.StatusFields := by
  refine ⟨fun s => ⟨status_cause s, status_flt s, status_rdy s, status_reserved s, status_klen s⟩, by decide, ?_, ?_⟩
  · intro s hc hr hk
    have hs : status s = status { State.reset with klen := 3 } := status_congr hc hr hk
    exact hs.trans (by decide)
  · intro s t hc hk h
    obtain ⟨c, rfl⟩ := exec_ksa_next_run h hc hk
    have ht : status (respond (installCipher s c) okCode 0) = status { State.reset with rdy := true } :=
      status_congr hc rfl rfl
    exact ht.trans (by decide)

end Sys2Proof.Machine
end

/-! ## The byte memories: what a read gives after a write or a swap (spec/20_memory.md, R54) -/

section
namespace Sys2Proof.Machine

/-- After a swap the byte at `b` is the old byte at `a` and the other way round; this holds for equal indices too. -/
theorem Memory.read_swap {m m' : Memory} {a b : Byte} (hs : m.swap a b = some m') (c : Byte) :
    m'.read c = if c = b then m.read a else if c = a then m.read b else m.read c := by
  obtain ⟨u, v, ha, hb, rfl⟩ := Memory.swap_eq_some.1 hs
  rw [Memory.read_write, Memory.read_write, ha, hb]

theorem Memory.read_swap_left {m m' : Memory} {a b : Byte} (hs : m.swap a b = some m') : m'.read a = m.read b := by
  rw [Memory.read_swap hs, if_pos rfl]
  split
  next hab => rw [hab]
  · rfl

theorem Memory.read_swap_right {m m' : Memory} {a b : Byte} (hs : m.swap a b = some m') : m'.read b = m.read a := by
  rw [Memory.read_swap hs, if_pos rfl]

theorem Memory.read_swap_self {m m' : Memory} {a : Byte} (hs : m.swap a a = some m') (c : Byte) : m'.read c = m.read c := by
  by_cases hc : c = a
  · rw [hc, Memory.read_swap_right hs]
  · exact Memory.read_swap_ne hs hc hc

/-- Settles O27: a swap of two bytes that hold values completes, and each clause is a read rule of `write` or `swap`. -/
theorem memoryAccess : Obligations.MemoryAccess := by
  refine ⟨Memory.read_write_same, fun m a b v hne => Memory.read_write_ne m v hne, ?_⟩
  intro m a b u v ha hb
  obtain ⟨m', hs⟩ : ∃ m', m.swap a b = some m' := ⟨_, Memory.swap_eq_some.2 ⟨u, v, ha, hb, rfl⟩⟩
  refine ⟨m', hs, (Memory.read_swap_left hs).trans hb, (Memory.read_swap_right hs).trans ha,
    fun c hca hcb => Memory.read_swap_ne hs hca hcb, ?_⟩
  rintro rfl c
  exact Memory.read_swap_self hs c

end Sys2Proof.Machine
end

/-! ## The encoding: decoder, encoder and opcode map, responses, and ENCRYPT with a long key (spec/30_encoding.md)

`decode_eq_command_iff` says what the decoder answers: a command exactly on that command's word. The opcode map (R74), the count
of legal words (R75) and the reserved words (R76) are read off it. What a response can carry is read off `Answers`. -/

section
namespace Sys2Proof

/-! ### Decode and encode -/

@[simp] theorem opField_encode (i : Instr) : opField (encode i) = opcode i := opField_append _ _

@[simp] theorem argField_encode (i : Instr) : argField (encode i) = argument i := argField_append _ _

theorem eq_encode_iff {w : CmdWord} {i : Instr} : w = encode i ↔ opField w = opcode i ∧ argField w = argument i := by
  rw [word_ext_iff, opField_encode, argField_encode]

theorem encode_ne_of_opField {w : CmdWord} {i : Instr} (h : opcode i ≠ opField w) : encode i ≠ w :=
  fun e => h (e ▸ (opField_encode i).symm)

/-- The decoder gives every command back from its word (R71, R75). -/
@[simp] theorem decode_encode (i : Instr) : decode (encode i) = .command i := by
  cases i with
  | rst | stat | ksa | next => rfl
  | kput b =>
    have hop : opField (encode (.kput b)) = 0x10 := opField_encode _
    have hne {w : CmdWord} (h : (0x10 : Byte) ≠ opField w) : encode (.kput b) ≠ w := encode_ne_of_opField h
    rw [decode, if_neg (hne (by decide)), if_neg (hne (by decide)), if_pos hop, argField_encode, argument]
  | xorb b =>
    have hop : opField (encode (.xorb b)) = 0x21 := opField_encode _
    have hne {w : CmdWord} (h : (0x21 : Byte) ≠ opField w) : encode (.xorb b) ≠ w := encode_ne_of_opField h
    rw [decode, if_neg (hne (by decide)), if_neg (hne (by decide)), if_neg (by rw [hop]; decide),
      if_neg (hne (by decide)), if_neg (hne (by decide)), if_pos hop, argField_encode, argument]

/-- No other word decodes to the command: in format B `op` and the operand are all 16 bits of the word (R71, R72). -/
theorem eq_encode_of_decode {w : CmdWord} {i : Instr} (h : decode w = .command i) : w = encode i := by
  unfold decode at h
  split_ifs at h with hrst hstat hkput hksa hnext hxorb <;> cases h
  · exact hrst
  · exact hstat
  · exact eq_encode_iff.2 ⟨hkput, rfl⟩
  · exact hksa
  · exact hnext
  · exact eq_encode_iff.2 ⟨hxorb, rfl⟩

theorem decode_eq_command_iff {w : CmdWord} {i : Instr} : decode w = .command i ↔ w = encode i :=
  ⟨eq_encode_of_decode, fun h => h ▸ decode_encode i⟩

theorem encode_injective : Function.Injective encode := fun i _ h =>
  Decoded.command.inj (decode_encode i ▸ decode_eq_command_iff.2 h)

/-- Settles O1, from the two directions of the round trip. -/
theorem decodeInvertsEncode : Obligations.DecodeInvertsEncode := fun _ _ => decode_eq_command_iff

/-- Settles O3: six of the words are `encode` of the command named, and the other two are evaluated. -/
theorem wordsOfTheSpecDecode : Obligations.WordsOfTheSpecDecode :=
  ⟨decode_encode .rst, decode_encode .stat, decode_encode (.kput 0x4B), decode_encode .ksa, decode_encode .next,
    decode_encode (.xorb 0x50), rfl, rfl⟩

/-! ### The opcode map -/

/-- The mask of a format-B row keeps `op` and drops the operand. -/
theorem and_opMask (w : CmdWord) : w &&& 0xFF00 = opField w ++ 0#8 := by
  calc w &&& 0xFF00 = (opField w ++ argField w) &&& (BitVec.allOnes 8 ++ 0#8) := by
        rw [opField_append_argField]; rfl
    _ = (opField w &&& BitVec.allOnes 8) ++ (argField w &&& 0#8) := and_append _ _ _ _
    _ = opField w ++ 0#8 := by rw [BitVec.and_allOnes, BitVec.and_zero]

theorem covers_wordMask {name : String} {pattern w : CmdWord} :
    OpcodeRow.covers ⟨name, pattern, 0xFFFF⟩ w = true ↔ w = pattern := by
  rw [OpcodeRow.covers, beq_iff_eq]
  change w &&& BitVec.allOnes 16 = pattern ↔ w = pattern
  rw [BitVec.and_allOnes]

theorem covers_opMask {name : String} {op : Byte} {w : CmdWord} :
    OpcodeRow.covers ⟨name, op ++ 0#8, 0xFF00⟩ w = true ↔ opField w = op := by
  rw [OpcodeRow.covers, beq_iff_eq, and_opMask, word_ext_iff]
  simp

theorem encodingMatchesRow (i : Instr) : Laws.EncodingMatchesRow.Statement i := by
  cases i with
  | rst => exact Laws.EncodingMatchesRow.rst
  | stat => exact Laws.EncodingMatchesRow.stat
  | kput b => exact Laws.EncodingMatchesRow.kput b
  | ksa => exact Laws.EncodingMatchesRow.ksa
  | next => exact Laws.EncodingMatchesRow.next
  | xorb b => exact Laws.EncodingMatchesRow.xorb b

/-- A word that a row of the map covers is the word of one of the row's commands. -/
theorem eq_encode_of_covers {row : OpcodeRow} {w : CmdWord} (hrow : row ∈ opcodeTable) (h : row.covers w = true) :
    ∃ i : Instr, w = encode i ∧ i.row = row := by
  simp only [opcodeTable, List.mem_cons, List.not_mem_nil, or_false] at hrow
  rcases hrow with rfl | rfl | rfl | rfl | rfl | rfl
  · exact ⟨.rst, covers_wordMask.1 h, rfl⟩
  · exact ⟨.stat, covers_wordMask.1 h, rfl⟩
  · exact ⟨.kput (argField w), eq_encode_iff.2 ⟨covers_opMask (op := 0x10).1 h, rfl⟩, rfl⟩
  · exact ⟨.ksa, covers_wordMask.1 h, rfl⟩
  · exact ⟨.next, covers_wordMask.1 h, rfl⟩
  · exact ⟨.xorb (argField w), eq_encode_iff.2 ⟨covers_opMask (op := 0x21).1 h, rfl⟩, rfl⟩

/-- A row of the map covers exactly the words that decode to a command of that row (R74, R75). -/
theorem covers_iff {row : OpcodeRow} (hrow : row ∈ opcodeTable) (w : CmdWord) :
    row.covers w = true ↔ ∃ i, decode w = .command i ∧ i.row = row := by
  simp only [decode_eq_command_iff]
  refine ⟨eq_encode_of_covers hrow, ?_⟩
  rintro ⟨i, rfl, rfl⟩
  exact (encodingMatchesRow i).1

/-- Settles O2: by `covers_iff` the rows that cover a word are the rows of its decoded command, of which there is one. -/
theorem decodeFollowsOpcodeMap : Obligations.DecodeFollowsOpcodeMap := by
  refine fun w => ⟨?_, fun i hi row hrow => ?_⟩
  · rw [legalWord, List.any_eq_true]
    constructor
    · rintro ⟨row, hrow, hc⟩
      obtain ⟨i, hi, -⟩ := (covers_iff hrow w).1 hc
      exact ⟨i, hi⟩
    · rintro ⟨i, hi⟩
      exact ⟨i.row, (encodingMatchesRow i).2, (covers_iff (encodingMatchesRow i).2 w).2 ⟨i, hi, rfl⟩⟩
  · rw [covers_iff hrow, hi]
    constructor
    · rintro ⟨j, hj, rfl⟩
      rw [Decoded.command.inj hj]
    · rintro rfl
      exact ⟨i, rfl, rfl⟩

/-! ### The legal words, counted -/

/-- The 256 bytes. -/
def allBytes : List Byte := (List.finRange 256).map BitVec.ofFin

theorem mem_allBytes (b : Byte) : b ∈ allBytes := List.mem_map.2 ⟨b.toFin, List.mem_finRange _, rfl⟩

theorem allBytes_nodup : allBytes.Nodup :=
  (List.nodup_finRange 256).map fun _ _ h => congrArg BitVec.toFin h

/-- All commands, with every operand: four of format N and two of format B (R74). -/
def allCommands : List Instr := [.rst, .stat, .ksa, .next] ++ (allBytes.map .kput ++ allBytes.map .xorb)

theorem mem_allCommands (i : Instr) : i ∈ allCommands := by
  cases i <;> simp [allCommands, mem_allBytes]

theorem allCommands_nodup : allCommands.Nodup := by
  have hkput : (allBytes.map Instr.kput).Nodup := allBytes_nodup.map fun _ _ => Instr.kput.inj
  have hxorb : (allBytes.map Instr.xorb).Nodup := allBytes_nodup.map fun _ _ => Instr.xorb.inj
  refine List.nodup_append'.2 ⟨by decide, List.nodup_append'.2 ⟨hkput, hxorb, ?_⟩, ?_⟩
  · simp [List.disjoint_left]
  · simp [List.disjoint_left]

/-- Settles O4: the list is `encode` of all 4 + 2 * 256 commands, different words because `encode` is injective. -/
theorem legalWordsAre516 : Obligations.LegalWordsAre516 := by
  refine ⟨allCommands.map encode, by simp [allCommands, allBytes], allCommands_nodup.map encode_injective, fun w => ?_⟩
  simp only [List.mem_map, mem_allCommands, true_and, decode_eq_command_iff, eq_comm]

/-! ### Reserved words -/

/-- The legal words by their fields: any operand in format B, `arg` 0 in format N (R75, R76). -/
theorem decode_command_iff_fields (w : CmdWord) :
    (∃ i, decode w = .command i) ↔
      (opField w = 0x10 ∨ opField w = 0x21) ∨
      (opField w = 0x01 ∨ opField w = 0x02 ∨ opField w = 0x11 ∨ opField w = 0x20) ∧ argField w = 0 := by
  simp only [decode_eq_command_iff]
  constructor
  · rintro ⟨i, rfl⟩
    rw [opField_encode, argField_encode]
    cases i <;> simp [opcode, argument]
  · rintro ((hop | hop) | ⟨hop | hop | hop | hop, harg⟩)
    · exact ⟨.kput (argField w), eq_encode_iff.2 ⟨hop, rfl⟩⟩
    · exact ⟨.xorb (argField w), eq_encode_iff.2 ⟨hop, rfl⟩⟩
    · exact ⟨.rst, eq_encode_iff.2 ⟨hop, harg⟩⟩
    · exact ⟨.stat, eq_encode_iff.2 ⟨hop, harg⟩⟩
    · exact ⟨.ksa, eq_encode_iff.2 ⟨hop, harg⟩⟩
    · exact ⟨.next, eq_encode_iff.2 ⟨hop, harg⟩⟩

/-- A word is ILLEGAL exactly when it is no command's word. -/
theorem decode_illegal_iff (w : CmdWord) : (∃ why, decode w = .illegal why) ↔ ¬ ∃ i, decode w = .command i := by
  constructor
  · rintro ⟨why, h⟩ ⟨i, hi⟩
    cases h.symm.trans hi
  · exact (decode_cases w).resolve_left

/-- The two kinds of illegal word (R76): the complement of `decode_command_iff_fields`, since no opcode is of both formats. -/
theorem decode_illegal_iff_fields (w : CmdWord) :
    (∃ why, decode w = .illegal why) ↔
      (opField w ≠ 0x01 ∧ opField w ≠ 0x02 ∧ opField w ≠ 0x10 ∧ opField w ≠ 0x11 ∧ opField w ≠ 0x20 ∧
        opField w ≠ 0x21) ∨
      ((opField w = 0x01 ∨ opField w = 0x02 ∨ opField w = 0x11 ∨ opField w = 0x20) ∧ argField w ≠ 0) := by
  rw [decode_illegal_iff, decode_command_iff_fields]
  grind

end Sys2Proof

namespace Sys2Proof.Machine

theorem execWord_encode (i : Instr) (s : State) : execWord (encode i) s = exec i s :=
  execWord_command (decode_encode i) s

/-- An illegal word raises `Fault(1)`, or is refused while the block is faulted (R76). -/
theorem execWord_illegal_eq {w : CmdWord} {why : IllegalWord} (h : decode w = .illegal why) (s : State) :
    execWord w s = if s.cause = 0 then .next (raiseFault s .illegal) else .next (refuseFaulted s) := by
  split
  next hc => exact execWord_of_raises hc (h ▸ .illegal why)
  next hc => exact execWord_of_faulted hc (by simp [h]) (by simp [h])

/-- Settles O5: the fields of the illegal words, two of them, and what executing one does. -/
theorem reservedWordsFault : Obligations.ReservedWordsFault :=
  ⟨decode_illegal_iff_fields, ⟨_, rfl⟩, ⟨_, rfl⟩, fun _ _ s h => execWord_illegal_eq h s, fun _ => ⟨_, rfl⟩⟩

/-! ### Responses -/

/-- From a state that meets the invariant `NEXT` and `XORB` answer, whatever `RDY` is (R32, R34). -/
theorem Inv.exists_streamStep {s : State} (hi : Inv s) (data : Byte → Byte) : ∃ t, streamStep s data = .next t := by
  by_cases hc : s.cause = 0
  · cases hr : s.rdy with
    | false => exact ⟨_, streamStep_notReady hc hr data⟩
    | true =>
      obtain ⟨z, c, hp⟩ := prga_of_isPerm (c := cipher s) (hi.perm hr)
      exact ⟨_, streamStep_run hc hr hp data⟩
  · exact ⟨_, streamStep_faulted hc data⟩

theorem Inv.exists_execKsa {s : State} (hi : Inv s) : ∃ t, execKsa s = .next t := by
  by_cases hc : s.cause = 0
  · by_cases hk : s.klen = 0
    · exact ⟨_, execKsa_empty hc hk⟩
    · obtain ⟨c, hs⟩ := keySchedule_of_keyHeld hk hi.key_held
      exact ⟨_, execKsa_run hc hk hs⟩
  · exact ⟨_, execKsa_faulted hc⟩

theorem exists_execKput (b : Byte) (s : State) : ∃ t, execKput b s = .next t := by
  by_cases hc : s.cause = 0
  · by_cases hk : s.klen = 256
    · exact ⟨_, execKput_full hc hk b⟩
    · exact ⟨_, execKput_run hc hk b⟩
  · exact ⟨_, execKput_faulted hc b⟩

theorem Inv.exists_exec {s : State} (hi : Inv s) (i : Instr) : ∃ t, exec i s = .next t := by
  cases i with
  | rst | stat => exact ⟨_, rfl⟩
  | kput b => exact exists_execKput b s
  | ksa => exact hi.exists_execKsa
  | next | xorb b => exact hi.exists_streamStep _

/-- From a state that meets the invariant every word is answered by a next state (R32, R170). -/
theorem Inv.exists_execWord {s : State} (hi : Inv s) (w : CmdWord) : ∃ t, execWord w s = .next t := by
  rcases decode_cases w with ⟨i, hd⟩ | ⟨why, hd⟩
  · rw [execWord_command hd]
    exact hi.exists_exec i
  · rw [execWord_illegal_eq hd]
    split <;> exact ⟨_, rfl⟩

theorem causeCode_ne_zero (c : FaultCause) : causeCode c ≠ 0 := by
  cases c <;> decide

/-- Every case of `Answers` gives one response, whose `err` is at most 5 and whose `data` is 0 where `err` is not (R73). -/
theorem Answers.response {d : Decoded} {s t : State} (h : Answers d s t) :
    ∃ r, t.responses = s.responses ++ [r] ∧ r.err.toNat ≤ 5 ∧ (r.err ≠ 0 → r.data = 0) := by
  cases h with
  | rst | stat | kput | ksa | stream => exact ⟨_, rfl, Nat.zero_le _, fun h => absurd rfl h⟩
  | raised => exact ⟨_, rfl, (causeCode_toNat_le _).trans (by decide), fun _ => rfl⟩
  | refused => exact ⟨_, rfl, by decide, fun _ => rfl⟩

/-- Settles O8: the two fields of a concatenation, and the response of the case of `Answers` that the word takes. -/
theorem responseFormat : Obligations.ResponseFormat := by
  refine ⟨fun r => ⟨extractHigh_append _ _, extractLow_append _ _⟩, fun w s hi => ?_⟩
  obtain ⟨t, ht⟩ := hi.exists_execWord w
  obtain ⟨r, hr⟩ := (execWord_eq_next_iff.1 ht).response
  exact ⟨t, r, ht, hr⟩

/-- A zero-extended byte has the byte below and 0 above (R10, R77). -/
theorem zext16_eq_append (z : Byte) : zext16 z = 0#8 ++ z :=
  BitVec.setWidth_eq_append (by decide)

theorem zext16_high (z : Byte) : (zext16 z).extractLsb' 8 8 = 0#8 := by
  rw [zext16_eq_append]
  exact extractHigh_append _ _

theorem zext16_low (z : Byte) : (zext16 z).extractLsb' 0 8 = z := by
  rw [zext16_eq_append]
  exact extractLow_append _ _

/-- Settles O9: a fault and a refusal respond with `err` not 0, and every other case of `Answers` is one row of R77's table. -/
theorem successDataByCommand : Obligations.SuccessDataByCommand := by
  intro i s t d h hr
  have given {r : Response} (ht : t.responses = s.responses ++ [r]) : r = ⟨0, d⟩ :=
    List.singleton_inj.1 (List.append_cancel_left (ht.symm.trans hr))
  cases answers_of_exec h with
  | rst | stat | kput | ksa => exact (congrArg Response.data (given rfl)).symm
  | @stream _ _ data z c hd _ _ hp =>
    obtain rfl : zext16 (data z) = d := congrArg Response.data (given rfl)
    cases i with
    | rst | stat | kput | ksa => cases hd
    | next | xorb => cases hd; exact ⟨z, c, hp, zext16_high _, zext16_low _⟩
  | raised => exact absurd (congrArg Response.err (given rfl)) (causeCode_ne_zero _)
  | refused => cases congrArg Response.err (given rfl)

/-! ### ENCRYPT with a key of more than 256 bytes -/

/-- The state after the bytes of `key` were appended to the key buffer, each with its response. -/
def loadKey (s : State) (key : List Byte) : State := key.foldl (fun s b => respond (pushKey s b) okCode 0) s

@[simp] theorem loadKey_nil (s : State) : loadKey s [] = s := rfl

@[simp] theorem loadKey_cons (s : State) (b : Byte) (key : List Byte) :
    loadKey s (b :: key) = loadKey (respond (pushKey s b) okCode 0) key := rfl

@[simp] theorem loadKey_cause (s : State) (key : List Byte) : (loadKey s key).cause = s.cause := by
  induction key generalizing s with
  | nil => rfl
  | cons b key ih => rw [loadKey_cons, ih, respond_cause, pushKey_cause]

@[simp] theorem loadKey_klen (s : State) (key : List Byte) :
    (loadKey s key).klen = s.klen + BitVec.ofNat 9 key.length := by
  induction key generalizing s with
  | nil => simp
  | cons b key ih =>
    rw [loadKey_cons, ih, respond_klen, pushKey_klen, List.length_cons, BitVec.add_assoc, Nat.add_comm, BitVec.ofNat_add]
    rfl

@[simp] theorem loadKey_responses (s : State) (key : List Byte) :
    (loadKey s key).responses = s.responses ++ List.replicate key.length okResponse := by
  induction key generalizing s with
  | nil => simp
  | cons b key ih =>
    rw [loadKey_cons, ih, respond_responses, pushKey_responses, List.append_assoc, List.length_cons, List.replicate_succ]
    rfl

/-- `KPUT`s succeed as long as the key buffer has room for their bytes (R100). -/
theorem runWords_kputs {s : State} {key : List Byte} (hc : s.cause = 0) (hroom : s.klen.toNat + key.length ≤ 256) :
    runWords ((key.map .kput).map encode) s = .next (loadKey s key) := by
  induction key generalizing s with
  | nil => rfl
  | cons b key ih =>
    rw [List.length_cons] at hroom
    have hk : s.klen ≠ 256 := fun h => by simp [h] at hroom
    have hw : execWord (encode (.kput b)) s = .next (respond (pushKey s b) okCode 0) :=
      (execWord_encode _ s).trans (execKput_run hc hk b)
    refine (runWords_cons_next hw).trans (ih hc ?_)
    rw [respond_klen, pushKey_klen]
    bv_omega

/-- A faulted block refuses every command but `RST` and `STAT`, one after the other, and changes no state (R175). -/
theorem runWords_refused {s : State} (hc : s.cause ≠ 0) {is : List Instr} (hrst : .rst ∉ is) (hstat : .stat ∉ is) :
    runWords (is.map encode) s =
      .next { s with responses := s.responses ++ List.replicate is.length ⟨faultedCode, 0⟩ } := by
  induction is generalizing s with
  | nil => simp [runWords]
  | cons i is ih =>
    obtain ⟨hi, hrst⟩ := List.ne_and_not_mem_of_not_mem_cons hrst
    obtain ⟨hi', hstat⟩ := List.ne_and_not_mem_of_not_mem_cons hstat
    have hw : execWord (encode i) s = .next (refuseFaulted s) :=
      execWord_of_faulted hc (by simp [hi.symm]) (by simp [hi'.symm])
    rw [List.map_cons, runWords_cons_next hw, ih (s := refuseFaulted s) hc hrst hstat, refuseFaulted_responses,
      List.append_assoc, List.length_cons, List.replicate_succ]
    rfl

/-- The words of `ENCRYPT` around a key byte `b`: the ones before it, and the ones after it up to the final `RST` (R82). -/
theorem encryptWords_split (data front rest : List Byte) (b : Byte) :
    pseudoWords (.encrypt data (front ++ b :: rest)) =
      (front.map .kput).map encode ++ encode (.kput b) ::
        ((rest.map Instr.kput ++ Instr.ksa :: data.map Instr.xorb).map encode ++ [encode .rst]) := by
  simp [pseudoWords, expand, encryptCommands, initCommands]

theorem runWords_rst (s : State) : runWords [encode .rst] s = .next (respond (resetBlock s) okCode 0) :=
  runWords_cons_next (execWord_encode .rst s)

theorem agree_reset (s : State) : Agree (respond (resetBlock s) okCode 0) State.reset :=
  ⟨rfl, rfl, rfl, fun _ _ => rfl, nofun⟩

/-- `ENCRYPT` with a key whose first 256 bytes are `front`: the block fills its key buffer, faults on `b` and refuses the words
after it; the final `RST` resets it. -/
theorem runWords_encrypt_long {s : State} (hs : CanStartKey s) (data : List Byte) {front : List Byte} (b : Byte)
    (rest : List Byte) (hfront : front.length = 256) :
    ∃ u, runWords (pseudoWords (.encrypt data (front ++ b :: rest))) s = .next (respond (resetBlock u) okCode 0) ∧
      u.responses = s.responses ++ List.replicate 256 okResponse ++ [⟨3, 0⟩] ++
        List.replicate (rest.length + (data.length + 1)) ⟨faultedCode, 0⟩ := by
  obtain ⟨hc, hk⟩ := hs
  have hload : runWords ((front.map .kput).map encode) s = .next (loadKey s front) :=
    runWords_kputs hc (by rw [hk, hfront]; decide)
  have hfull : (loadKey s front).klen = 256 := by rw [loadKey_klen, hk, hfront]; rfl
  have hfault : execWord (encode (.kput b)) (loadKey s front) = .next (raiseFault (loadKey s front) .keyOverflow) :=
    (execWord_encode _ _).trans (execKput_full ((loadKey_cause s front).trans hc) hfull b)
  have hrefuse := runWords_refused (s := raiseFault (loadKey s front) .keyOverflow) (causeCode_ne_zero .keyOverflow)
    (is := rest.map Instr.kput ++ Instr.ksa :: data.map Instr.xorb) (by simp) (by simp)
  rw [encryptWords_split, runWords_append_next hload, runWords_cons_next hfault, runWords_append_next hrefuse,
    runWords_rst]
  exact ⟨_, rfl, by simp [hfront, causeCode, -List.reduceReplicate]⟩

/-- A run of `ENCRYPT` with a response of `err` not 0 has no result (R153, R208; log entry 18). -/
theorem encryptResult_eq_none {s t : State} {data key : List Byte} {given : List Response} {r : Response}
    (h : runWords (pseudoWords (.encrypt data key)) s = .next t) (hgiven : t.responses = s.responses ++ given)
    (hr : r ∈ given) (herr : r.err ≠ okCode) : encryptResult s data key = none := by
  refine Option.eq_none_iff_forall_ne_some.2 fun out hout => ?_
  obtain ⟨t', ht', hok, -⟩ := encryptResult_eq_some hout
  obtain rfl : t = t' := Host.Outcome.next.inj (h.symm.trans ht')
  rw [hgiven, List.drop_left] at hok
  exact herr (hok r hr)

/-- Settles O54: the run of `runWords_encrypt_long`, in which the response `(3, 0)` leaves no result. -/
theorem encryptWithLongKey : Obligations.EncryptWithLongKey := by
  intro data key s hs hlen
  have hkey : key.take 256 ++ key[256] :: key.drop 257 = key := by
    rw [← List.drop_eq_getElem_cons, List.take_append_drop]
  obtain ⟨u, hrun, hu⟩ := runWords_encrypt_long hs data key[256] (key.drop 257) (List.length_take_of_le hlen.le)
  rw [hkey] at hrun
  have hcount : (key.drop 257).length + (data.length + 1) = key.length - 256 + data.length := by
    rw [List.length_drop]
    omega
  have hgiven : (respond (resetBlock u) okCode 0).responses = s.responses ++ (List.replicate 256 ⟨0, 0⟩ ++ [⟨3, 0⟩] ++
      List.replicate (key.length - 256 + data.length) ⟨5, 0⟩ ++ [⟨0, 0⟩]) := by
    rw [respond_responses, resetBlock_responses, hu, hcount]
    simp only [List.append_assoc]
    rfl
  refine ⟨_, hrun, agree_reset u, hgiven, encryptResult_eq_none (r := ⟨3, 0⟩) hrun hgiven ?_ (by decide)⟩
  simp [-List.reduceReplicate]

end Sys2Proof.Machine
end

/-! ## Key loading and key scheduling: KPUT and KSA (spec/40_key_schedule.md)

`execKput_next` and `execKsa_next` say what each command can answer, and each frame is a case analysis on them. That `KSA` reads
the key below `KLEN` only, and nothing else of the state, is `keySchedule_congr`. -/

section
namespace Sys2Proof.Machine

/-! ### KPUT -/

/-- The word of `KPUT` as R100 writes it: the opcode in the upper byte, or-ed with the operand. -/
theorem encode_kput (b : Byte) : encode (.kput b) = 0x1000 ||| b.setWidth 16 := BitVec.append_def 0x10#8 b

theorem kputIndex_eq_setWidth (klen : BitVec 9) : kputIndex klen = klen.setWidth 8 :=
  (BitVec.setWidth_eq_extractLsb' (by decide)).symm

/-- Settles O16: `KPUT` raises `Fault(3)` on a full buffer and else writes one byte of `K`, which the read rules of a write give. -/
theorem kputAppendsKeyByte : Obligations.KputAppendsKeyByte := by
  intro b s
  refine ⟨encode_kput b, fun hc hk => execKput_full hc hk b, fun hc hk => ⟨_, execKput_run hc hk b, ?_⟩⟩
  rw [← kputIndex_eq_setWidth]
  exact ⟨Memory.read_write_same _ _ _, fun a ha => Memory.read_write_ne _ _ ha⟩

/-- A `KPUT` that finds room appends its byte (R100). -/
theorem exec_kput_next_run {b : Byte} {s t : State} (h : exec (.kput b) s = .next t) (hc : s.cause = 0)
    (hk : s.klen ≠ 256) : t = respond (pushKey s b) okCode 0 :=
  (Host.Outcome.next.inj ((execKput_run hc hk b).symm.trans h)).symm

/-- A `NEXT` in a ready block that is answered made one PRGA step (R120, R121). -/
theorem exec_next_next_run {s t : State} (h : exec .next s = .next t) (hc : s.cause = 0) (hr : s.rdy = true) :
    ∃ z c, prga (cipher s) = some (z, c) ∧ t = respond (setCipher s c) okCode (zext16 z) := by
  rcases streamStep_next h with ⟨hc', -⟩ | ⟨-, hr', -⟩ | ⟨-, -, hrun⟩
  · exact absurd hc hc'
  · cases hr.symm.trans hr'
  · exact hrun

/-- Settles O17: `NEXT` reads `CAUSE`, `RDY` and the CipherState only, and appending a key byte leaves all three. -/
theorem kputLeavesStreamAlone : Obligations.KputLeavesStreamAlone := by
  intro b s t u hc hk ht hu hr
  obtain rfl := exec_kput_next_run ht hc hk
  obtain ⟨z, c, hp, rfl⟩ := exec_next_next_run hu hc hr
  exact ⟨_, _, streamStep_run (s := respond (pushKey s b) okCode 0) hc hr hp _, rfl, rfl, rfl, rfl, rfl⟩

/-- Settles O18, by what `KPUT` can answer: the refusal, `Fault(3)`, or one byte appended. -/
theorem kputFrame : Obligations.KputFrame := by
  intro b s t h
  rcases execKput_next h with ⟨-, rfl⟩ | ⟨hc, hk, rfl⟩ | ⟨hc, -, rfl⟩
  · exact ⟨rfl, rfl, rfl, rfl, rfl, rfl, rfl, fun _ _ => rfl, .inl rfl, fun _ => ⟨rfl, rfl⟩, _, rfl⟩
  · exact ⟨rfl, rfl, rfl, rfl, rfl, rfl, rfl, fun _ _ => rfl, .inr ⟨hc, hk, rfl, rfl, rfl⟩, fun _ => ⟨rfl, rfl⟩, _, rfl⟩
  · exact ⟨rfl, rfl, rfl, rfl, rfl, rfl, rfl, fun _ ha => Memory.read_write_ne _ _ ha, .inl rfl,
      fun hf => absurd hc hf, _, rfl⟩

/-! ### KSA -/

/-- A key buffer that holds `key` below `KLEN` holds the expanded key `e[r] = key[r mod KLEN]` (R53, R104). -/
theorem read_keyIndex {K : Memory} {klen : BitVec 9} {key : Nat → Byte} (h0 : klen ≠ 0)
    (h : ∀ n, n < klen.toNat → K.read (BitVec.ofNat 8 n) = some (key n)) (r : Nat) :
    K.read (keyIndex r klen) = some (key (r % klen.toNat)) := by
  obtain ⟨n, hn, rfl, he⟩ := keyIndex_eq (r := r) h0
  exact he ▸ h _ hn

/-- The key schedule depends on the bytes of `K` below `KLEN` only (R105). -/
theorem keySchedule_eq_of_key {K K' : Memory} {klen : BitVec 9} (h0 : klen ≠ 0)
    (h : ∀ n, n < klen.toNat → K'.read (BitVec.ofNat 8 n) = K.read (BitVec.ofNat 8 n)) :
    keySchedule K' klen = keySchedule K klen := by
  refine keySchedule_congr fun r _ => ?_
  obtain ⟨n, hn, -, he⟩ := keyIndex_eq (r := r) h0
  rw [he]
  exact h n hn

/-- The CipherState after a `KSA` that ran is the one of the key schedule. -/
theorem keySchedule_of_exec_ksa {s t : State} (h : exec .ksa s = .next t) (hc : s.cause = 0) (hk : s.klen ≠ 0) :
    keySchedule s.K s.klen = some (cipher t) := by
  rcases execKsa_next h with ⟨hc', -⟩ | ⟨-, hk', -⟩ | ⟨-, -, c, hs, rfl⟩
  · exact absurd hc hc'
  · exact absurd hk' hk
  · exact hs

/-- Settles O19: a `KSA` with a key runs the key schedule, and `keySchedule_holds` gives the bytes its 256 rounds leave. -/
theorem ksaBuildsCipherState : Obligations.KsaBuildsCipherState := by
  refine ⟨rfl, fun s hc hk => execKsa_empty hc hk, fun s key hc hk hkey => ?_⟩
  obtain ⟨S, hs, hS⟩ := keySchedule_holds fun r _ => read_keyIndex hk hkey r
  exact ⟨S, execKsa_run hc hk hs, hS⟩

/-- Settles O20: the key schedule reads the key at `r mod KLEN` only, so `t` gets the CipherState that `s` got. -/
theorem ksaDependsOnExpandedKeyOnly : Obligations.KsaDependsOnExpandedKeyOnly := by
  intro s t hcs hct hks hkt hkey s' h
  have ht : keySchedule t.K t.klen = some (cipher s') :=
    (keySchedule_congr hkey).symm.trans (keySchedule_of_exec_ksa h hcs hks)
  exact ⟨_, execKsa_run hct hkt ht, rfl⟩

/-- Settles O21: both CipherStates are that of one key schedule, which starts at the identity and makes swaps only. -/
theorem ksaForgetsEarlierState : Obligations.KsaForgetsEarlierState := by
  intro s t s' t' hcs hct hk hklen hkey hs ht
  have hS := keySchedule_of_exec_ksa hs hcs hk
  have hT := keySchedule_of_exec_ksa ht hct (hklen ▸ hk)
  rw [hklen, keySchedule_eq_of_key hk hkey] at hT
  exact ⟨Option.some.inj (hT.symm.trans hS), keySchedule_isPerm hS⟩

/-- Settles O22, by what `KSA` can answer: the refusal, `Fault(2)`, or the CipherState of the key schedule installed. -/
theorem ksaFrame : Obligations.KsaFrame := by
  intro s t h
  rcases execKsa_next h with ⟨-, rfl⟩ | ⟨hc, hk, rfl⟩ | ⟨hc, hk, c, -, rfl⟩
  · exact ⟨rfl, rfl, rfl, rfl, .inl rfl, fun _ => ⟨rfl, rfl, rfl, rfl, rfl⟩, _, rfl⟩
  · exact ⟨rfl, rfl, rfl, rfl, .inr ⟨hc, hk, rfl⟩, fun _ => ⟨rfl, rfl, rfl, rfl, rfl⟩, _, rfl⟩
  · refine ⟨rfl, rfl, rfl, rfl, .inl rfl, ?_, _, rfl⟩
    rintro (hf | h0)
    · exact absurd hc hf
    · exact absurd h0 hk

end Sys2Proof.Machine
end

/-! ## Keystream generation and stream XOR: NEXT and XORB (spec/41_keystream.md)

Both commands are one `streamStep`: `streamStep_next` says what it can answer and `prga_holds` what its PRGA step gives, for any
byte made from the keystream byte. So the two commands differ in the data of the response only. -/

section
namespace Sys2Proof.Machine

/-- Settles O23: a ready block makes the PRGA step of `prga_holds`. -/
theorem nextStepsStream : Obligations.NextStepsStream := by
  refine ⟨rfl, fun s hc hr => streamStep_notReady hc hr _, fun s f hc hr hf => ?_⟩
  obtain ⟨S', hp, hS'⟩ := prga_holds (c := cipher s) hf
  exact ⟨S', streamStep_run hc hr hp _, hS'⟩

/-- The word of `XORB` as R122 writes it: the opcode in the upper byte, or-ed with the operand. -/
theorem encode_xorb (b : Byte) : encode (.xorb b) = 0x2100 ||| b.setWidth 16 := BitVec.append_def 0x21#8 b

theorem zext16_injective : Function.Injective zext16 := Function.LeftInverse.injective zext16_low

/-- A stream command whose response has `err = 0` made one PRGA step, and its data is made from the keystream byte. -/
theorem streamStep_next_ok {s t : State} {data : Byte → Byte} {d : BitVec 16} (h : streamStep s data = .next t)
    (ht : t.responses = s.responses ++ [⟨okCode, d⟩]) :
    s.cause = 0 ∧ s.rdy = true ∧ ∃ z c, prga (cipher s) = some (z, c) ∧ d = zext16 (data z) ∧
      t = respond (setCipher s c) okCode d := by
  have given {r : Response} (hr : t.responses = s.responses ++ [r]) : r = ⟨okCode, d⟩ :=
    List.singleton_inj.1 (List.append_cancel_left (hr.symm.trans ht))
  rcases streamStep_next h with ⟨-, rfl⟩ | ⟨-, -, rfl⟩ | ⟨hc, hr, z, c, hp, rfl⟩
  · cases congrArg Response.err (given rfl)
  · cases congrArg Response.err (given rfl)
  · obtain rfl : zext16 (data z) = d := congrArg Response.data (given rfl)
    exact ⟨hc, hr, z, c, hp, rfl, rfl⟩

/-- `XORB 0x00` is `NEXT` in every state (R122). -/
theorem exec_xorb_zero (s : State) : exec (.xorb 0x00) s = exec .next s :=
  congrArg (streamStep s) (funext fun _ => BitVec.xor_zero)

/-- Settles O24: one PRGA step serves `NEXT` and every `XORB b`, and `z ^ b` is `z` for `0x00` and `~z` for `0xFF`. -/
theorem xorbStepsStream : Obligations.XorbStepsStream := by
  refine ⟨encode_xorb, fun b s hc hr => streamStep_notReady hc hr _, fun s f hc hr hf => ?_,
    fun s => ⟨exec_xorb_zero s, fun t z ht hz => ?_⟩⟩
  · obtain ⟨S', hp, hS'⟩ := prga_holds (c := cipher s) hf
    exact ⟨S', hS', streamStep_run hc hr hp _, fun b => streamStep_run hc hr hp _⟩
  · obtain ⟨hc, hr, z', c, hp, hdata, rfl⟩ := streamStep_next_ok ht hz
    obtain rfl : z = z' := zext16_injective hdata
    have hnot : z ^^^ 0xFF = ~~~z := BitVec.xor_allOnes
    rw [← hnot]
    exact streamStep_run hc hr hp _

/-- A PRGA step keeps every byte of `S` but the two it swaps (R120). -/
theorem prga_read_ne {c c' : CipherState} {z si a : Byte} (hp : prga c = some (z, c'))
    (hsi : c.S.read (nextI c.i) = some si) (hi : a ≠ nextI c.i) (hj : a ≠ nextJ c.j si) : c'.S.read a = c.S.read a := by
  obtain ⟨si', hsi', hci, hcj, hs, -⟩ := prga_eq_some hp
  obtain rfl : si = si' := Option.some.inj (hsi.symm.trans hsi')
  exact Memory.read_swap_ne hs (hci ▸ hi) (hcj ▸ hj)

/-- `NEXT` and `XORB` are both the shared body. -/
theorem exec_eq_streamStep {i : Instr} (hi : i = .next ∨ ∃ b, i = .xorb b) (s : State) :
    ∃ data, exec i s = streamStep s data := by
  rcases hi with rfl | ⟨b, rfl⟩ <;> exact ⟨_, rfl⟩

/-- Settles O25, by what the shared body can answer: the refusal, `Fault(4)`, or one PRGA step. -/
theorem streamFrame : Obligations.StreamFrame := by
  intro i s t hi h
  obtain ⟨data, he⟩ := exec_eq_streamStep hi s
  rcases streamStep_next (he ▸ h) with ⟨-, rfl⟩ | ⟨hc, hr, rfl⟩ | ⟨hc, hr, z, c, hp, rfl⟩
  · exact ⟨rfl, rfl, rfl, rfl, rfl, rfl, .inl rfl, fun _ => ⟨rfl, rfl, rfl⟩, fun _ _ _ _ _ => rfl, _, rfl⟩
  · exact ⟨rfl, rfl, rfl, rfl, rfl, rfl, .inr ⟨hc, hr, rfl⟩, fun _ => ⟨rfl, rfl, rfl⟩, fun _ _ _ _ _ => rfl, _, rfl⟩
  · refine ⟨rfl, rfl, rfl, rfl, rfl, rfl, .inl rfl, ?_, fun a si hsi hi hj => prga_read_ne hp hsi hi hj, _, rfl⟩
    rintro (hf | hf)
    · exact absurd hc hf
    · cases hr.symm.trans hf

end Sys2Proof.Machine
end

/-! ## The system commands: RST and STAT (spec/42_system.md)

Each has one answer, in every state and whether or not the block is faulted: `exec_rst_eq` and `exec_stat_eq` say which. A word with
the opcode of one of them and an `arg` that is not 0 is ILLEGAL. -/

section
namespace Sys2Proof.Machine

/-- `RST` has one answer in every state, faulted or not (R140, R170). -/
theorem exec_rst_eq (s : State) : exec .rst s = .next (respond (resetBlock s) okCode 0) := rfl

/-- `STAT` has one answer in every state, faulted or not (R141, R170). -/
theorem exec_stat_eq (s : State) : exec .stat s = .next (respond s okCode (status s)) := rfl

theorem status_reset : status State.reset = 0 := by decide

/-- A format-N word with an `arg` that is not 0 is ILLEGAL (R76). -/
theorem decode_illegal_of_argField_ne {w : CmdWord}
    (hop : opField w = 0x01 ∨ opField w = 0x02 ∨ opField w = 0x11 ∨ opField w = 0x20) (harg : argField w ≠ 0) :
    ∃ why, decode w = .illegal why :=
  (decode_illegal_iff_fields w).2 (.inr ⟨hop, harg⟩)

/-- Settles O12: the answer of `RST` agrees with the reset state, so its `STATUS` is that of reset; a word `0x01xx` with
another `arg` is illegal. -/
theorem rstGivesResetState : Obligations.RstGivesResetState := by
  refine ⟨rfl, fun s => ?_, fun w s hop harg => ?_⟩
  · have hagree : Agree (respond (resetBlock s) okCode 0) State.reset := agree_reset s
    exact ⟨_, exec_rst_eq s, hagree.rdy, hagree.cause, hagree.klen, hagree.status_eq.trans status_reset, rfl, hagree, rfl⟩
  · obtain ⟨why, hw⟩ := decode_illegal_of_argField_ne (.inl hop) harg
    exact execWord_illegal_eq hw s

/-- Settles O13: the answer of `STAT` is `STATUS`, written out by its fields, and `KLEN` is its low 9 bits. -/
theorem statReturnsStatus : Obligations.StatReturnsStatus :=
  ⟨rfl, exec_stat_eq, fun s hk => (status_klen s).trans hk,
    fun _ hop harg => decode_illegal_of_argField_ne (.inr (.inl hop)) harg⟩

/-- Settles O15: a response leaves every field but `responses`, and the reset of the block leaves the inputs and the source. -/
theorem systemFrame : Obligations.SystemFrame := by
  refine ⟨fun s t h => ?_, fun s t h => ?_⟩
  · obtain rfl : respond s okCode (status s) = t := Host.Outcome.next.inj ((exec_stat_eq s).symm.trans h)
    exact ⟨rfl, rfl, rfl, rfl, rfl, rfl, rfl, rfl, rfl, rfl, _, respond_responses s okCode (status s)⟩
  · obtain rfl : respond (resetBlock s) okCode 0 = t := Host.Outcome.next.inj ((exec_rst_eq s).symm.trans h)
    exact ⟨rfl, rfl, _, respond_responses (resetBlock s) okCode 0⟩

end Sys2Proof.Machine
end

/-! ## Composite operations: the life of a block, INIT, KEYSTREAM and ENCRYPT (spec/43_composite.md)

The run of each pseudo-instruction is given as one equation for `runWords`, from a key buffer that holds bytes (`HoldsKey`), a ready
CipherState (`runWords_streams`) or a faulted block (`runWords_refused`). The laws of R151 to R155 are read off these equations.
R158's table is a case analysis on `Answers`, and R156 rests on this: no command reads the responses already given. -/

section
namespace Sys2Proof.Machine

/-! ### The life of a block -/

theorem lifeClass_faulted {s : State} (hc : s.cause ≠ 0) : lifeClass s = .faulted := if_pos hc

theorem lifeClass_notFaulted {s : State} (hc : s.cause = 0) :
    lifeClass s = if s.rdy then (if s.klen = 0 then .ready else .readyKeying)
      else (if s.klen = 0 then .empty else .keying) := if_neg (not_not.2 hc)

/-- An appended key byte leaves `KLEN` not 0, so it leads to the column of R158's table for a buffer in use. -/
theorem lifeClass_pushKey {s : State} (hc : s.cause = 0) (hle : s.klen.toNat ≤ 256) (b : Byte) :
    lifeClass (pushKey s b) = classAfterKput (lifeClass s) := by
  have hk : s.klen + 1 ≠ 0 := by bv_omega
  rw [lifeClass_notFaulted hc, lifeClass_notFaulted (s := pushKey s b) hc, pushKey_rdy, pushKey_klen, if_neg hk]
  split <;> split <;> rfl

/-- A word that raises a fault stands in a cell of R158's table that leads to the faulted class. -/
theorem Raises.classAfter_eq {d : Decoded} {s : State} {c : FaultCause} (h : Raises d s c) (hc : s.cause = 0) :
    classAfter (s.klen == 256) (lifeClass s) d = .faulted := by
  cases h with
  | illegal => rfl
  | emptyKey hk =>
    rw [lifeClass_notFaulted hc, if_pos hk, if_pos hk]
    split <;> rfl
  | keyOverflow b hk => simp [classAfter, hk]
  | notReady hd hr =>
    rw [lifeClass_notFaulted hc, if_neg (Bool.not_eq_true _ ▸ hr)]
    obtain ⟨i, rfl, -⟩ := streamData_eq_some hd
    cases i with
    | next | xorb => split <;> rfl
    | rst | stat | kput | ksa => cases hd

/-- Every command but `RST` keeps the faulted class (R158, R175). -/
theorem classAfter_faulted {d : Decoded} (full : Bool) (hrst : d ≠ .command .rst) :
    classAfter full .faulted d = .faulted := by
  match d with
  | .command .rst => exact absurd rfl hrst
  | .command (.kput _) => cases full <;> rfl
  | .command .stat | .command .ksa | .command .next | .command (.xorb _) | .illegal _ => rfl

/-- A stream command in a ready block keeps the class (R158). -/
theorem classAfter_stream {d : Decoded} {s : State} {data : Byte → Byte} (full : Bool) (hd : streamData d = some data)
    (hc : s.cause = 0) (hr : s.rdy = true) : classAfter full (lifeClass s) d = lifeClass s := by
  rw [lifeClass_notFaulted hc, if_pos hr]
  obtain ⟨i, rfl, -⟩ := streamData_eq_some hd
  cases i with
  | next | xorb => split <;> rfl
  | rst | stat | kput | ksa => cases hd

theorem Answers.lifeClass_eq {d : Decoded} {s t : State} (h : Answers d s t) (hi : Inv s) :
    lifeClass t = classAfter (s.klen == 256) (lifeClass s) d := by
  cases h with
  | rst | stat => rfl
  | kput b hc hk =>
    have hfull : (s.klen == 256) = false := beq_false_of_ne hk
    rw [hfull]
    exact lifeClass_pushKey hc hi.klen_le b
  | @ksa _ c hc hk _ =>
    have hready : lifeClass (respond (installCipher s c) okCode 0) = .ready := lifeClass_notFaulted hc
    rw [hready, lifeClass_notFaulted hc, if_neg hk, if_neg hk]
    split <;> rfl
  | stream hd hc hr _ => exact (classAfter_stream _ hd hc hr).symm
  | raised hc h => exact (lifeClass_faulted (causeCode_ne_zero _)).trans (h.classAfter_eq hc).symm
  | refused hc hrst _ =>
    rw [lifeClass_faulted hc, classAfter_faulted _ hrst]
    exact lifeClass_faulted hc

/-- Settles O41: a word is answered, and each case of `Answers` leads where R158's table says. -/
theorem lifeClassTable : Obligations.LifeClassTable := by
  intro w s hi
  obtain ⟨t, ht⟩ := hi.exists_execWord w
  exact ⟨t, ht, (execWord_eq_next_iff.1 ht).lifeClass_eq hi⟩

/-! ### INIT -/

@[simp] theorem loadKey_rdy (s : State) (key : List Byte) : (loadKey s key).rdy = s.rdy := by
  induction key generalizing s with
  | nil => rfl
  | cons b key ih => rw [loadKey_cons, ih, respond_rdy, pushKey_rdy]

@[simp] theorem loadKey_cipher (s : State) (key : List Byte) : cipher (loadKey s key) = cipher s := by
  induction key generalizing s with
  | nil => rfl
  | cons b key ih => rw [loadKey_cons, ih, cipher_respond, cipher_pushKey]

/-- The key buffer holds the bytes of `key`, the first of them at index 0, and `KLEN` counts them (R26). -/
def HoldsKey (s : State) (key : List Byte) : Prop :=
  s.klen = BitVec.ofNat 9 key.length ∧ ∀ n b, key[n]? = some b → s.K.read (BitVec.ofNat 8 n) = some b

theorem CanStartKey.holdsKey_nil {s : State} (h : CanStartKey s) : HoldsKey s [] := ⟨h.2, by simp⟩

theorem toNat_ofNat_length {key : List Byte} (hle : key.length ≤ 256) :
    (BitVec.ofNat 9 key.length).toNat = key.length :=
  Nat.mod_eq_of_lt (by omega)

theorem ofNat_length_ne_zero {key : List Byte} (hpos : 1 ≤ key.length) (hle : key.length ≤ 256) :
    BitVec.ofNat 9 key.length ≠ 0 := fun h => by
  have h0 := congrArg BitVec.toNat h
  rw [toNat_ofNat_length hle] at h0
  exact absurd h0 (Nat.ne_of_gt hpos)

/-- A key byte is appended after the bytes the buffer holds (R100). -/
theorem HoldsKey.push {s : State} {key : List Byte} (h : HoldsKey s key) (b : Byte) (hlt : key.length < 256) :
    HoldsKey (respond (pushKey s b) okCode 0) (key ++ [b]) := by
  obtain ⟨hklen, hK⟩ := h
  have hidx : kputIndex s.klen = BitVec.ofNat 8 key.length := by
    rw [kputIndex_eq, hklen, toNat_ofNat_length hlt.le]
  refine ⟨?_, fun n x hx => ?_⟩
  · rw [respond_klen, pushKey_klen, hklen, List.length_append, BitVec.ofNat_add]
    rfl
  · have hn : n < key.length + 1 := by simpa using (List.getElem?_eq_some_iff.1 hx).1
    rw [respond_K, pushKey_K, hidx]
    rcases Nat.lt_succ_iff_lt_or_eq.1 hn with hn | rfl
    · have hne : BitVec.ofNat 8 n ≠ BitVec.ofNat 8 key.length := by bv_omega
      rw [Memory.read_write_ne _ _ hne]
      rw [List.getElem?_append_left hn] at hx
      exact hK n x hx
    · rw [Memory.read_write_same]
      simpa using hx

theorem HoldsKey.load {s : State} {old : List Byte} (h : HoldsKey s old) {key : List Byte}
    (hle : (old ++ key).length ≤ 256) : HoldsKey (loadKey s key) (old ++ key) := by
  induction key generalizing s old with
  | nil => simpa using h
  | cons b key ih =>
    have hassoc : old ++ b :: key = old ++ [b] ++ key := by simp
    rw [hassoc] at hle ⊢
    refine ih (h.push b ?_) hle
    simp only [List.length_append, List.length_singleton] at hle
    omega

theorem HoldsKey.klen_ne_zero {s : State} {key : List Byte} (h : HoldsKey s key) (hpos : 1 ≤ key.length)
    (hle : key.length ≤ 256) : s.klen ≠ 0 :=
  h.1 ▸ ofNat_length_ne_zero hpos hle

theorem Memory.read_ofBytes_ofNat {key : List Byte} {n : Nat} (hle : key.length ≤ 256) (hn : n < key.length) :
    (Memory.ofBytes key).read (BitVec.ofNat 8 n) = some key[n] := by
  have hn8 : (BitVec.ofNat 8 n).toNat = n := Nat.mod_eq_of_lt (by omega)
  rw [Memory.read_ofBytes, hn8, List.getElem?_eq_getElem hn]

/-- The key schedule on a buffer that holds `key` is `ksa(key)` (R150). -/
theorem HoldsKey.keySchedule_eq {s : State} {key : List Byte} (h : HoldsKey s key) (hpos : 1 ≤ key.length)
    (hle : key.length ≤ 256) : keySchedule s.K s.klen = ksaOf key := by
  obtain ⟨hklen, hK⟩ := h
  rw [hklen]
  refine keySchedule_eq_of_key (ofNat_length_ne_zero hpos hle) fun n hn => ?_
  rw [toNat_ofNat_length hle] at hn
  rw [Memory.read_ofBytes_ofNat hle hn]
  exact hK n _ (List.getElem?_eq_getElem hn)

/-- A key of 1 to 256 bytes has a CipherState (R150). -/
theorem exists_ksaOf {key : List Byte} (hpos : 1 ≤ key.length) (hle : key.length ≤ 256) : ∃ c, ksaOf key = some c := by
  refine keySchedule_of_keyHeld (ofNat_length_ne_zero hpos hle) fun n hn => ?_
  rw [toNat_ofNat_length hle] at hn
  rw [Memory.read_ofBytes_ofNat hle hn, Option.isSome_some]

/-- The state after an `INIT key` that has built the CipherState `c` (R151). -/
def initState (s : State) (key : List Byte) (c : CipherState) : State :=
  respond (installCipher (loadKey s key) c) okCode 0

@[simp] theorem initState_rdy (s : State) (key : List Byte) (c : CipherState) : (initState s key c).rdy = true := rfl

@[simp] theorem initState_klen (s : State) (key : List Byte) (c : CipherState) : (initState s key c).klen = 0 := rfl

@[simp] theorem initState_cipher (s : State) (key : List Byte) (c : CipherState) : cipher (initState s key c) = c := rfl

@[simp] theorem initState_cause (s : State) (key : List Byte) (c : CipherState) :
    (initState s key c).cause = s.cause := loadKey_cause s key

/-- The responses of `INIT`: one `(0, 0)` per key byte and one for `KSA` (R151). -/
@[simp] theorem initState_responses (s : State) (key : List Byte) (c : CipherState) :
    (initState s key c).responses = s.responses ++ List.replicate (key.length + 1) okResponse := by
  rw [initState, respond_responses, installCipher_responses, loadKey_responses, List.append_assoc, List.replicate_succ']
  rfl

/-- `INIT key` in a buffer that holds `old` installs the CipherState of `old` followed by `key` (R151, R207). -/
theorem runWords_init {s : State} {old key : List Byte} {c : CipherState} (hc : s.cause = 0) (hold : HoldsKey s old)
    (hpos : 1 ≤ (old ++ key).length) (hle : (old ++ key).length ≤ 256) (hksa : ksaOf (old ++ key) = some c) :
    runWords (pseudoWords (.init key)) s = .next (initState s key c) := by
  have hroom : s.klen.toNat + key.length ≤ 256 := by
    rw [List.length_append] at hle
    rwa [hold.1, toNat_ofNat_length (by omega)]
  have hload := hold.load hle
  have hs : keySchedule (loadKey s key).K (loadKey s key).klen = some c := (hload.keySchedule_eq hpos hle).trans hksa
  have hrun : execWord (encode .ksa) (loadKey s key) = .next (initState s key c) :=
    (execWord_encode _ _).trans (execKsa_run ((loadKey_cause s key).trans hc) (hload.klen_ne_zero hpos hle) hs)
  rw [pseudoWords, expand, initCommands, List.map_append, runWords_append_next (runWords_kputs hc hroom)]
  exact runWords_cons_next hrun

/-- `INIT` where the host may start a key (R80, R151): the run, and the CipherState it installs. -/
theorem CanStartKey.runWords_init {s : State} (hs : CanStartKey s) {key : List Byte} {c : CipherState}
    (hpos : 1 ≤ key.length) (hle : key.length ≤ 256) (hksa : ksaOf key = some c) :
    runWords (pseudoWords (.init key)) s = .next (initState s key c) :=
  Machine.runWords_init hs.1 hs.holdsKey_nil hpos hle hksa

/-- Settles O44: the run of `INIT` on an empty buffer, and `STATUS` from `CAUSE`, `RDY` and `KLEN`. -/
theorem initBuildsKeyState : Obligations.InitBuildsKeyState := by
  intro key s hs hpos hle
  obtain ⟨c, hksa⟩ := exists_ksaOf hpos hle
  obtain ⟨hi, hj, -⟩ := keySchedule_eq_some hksa
  have hcause : (initState s key c).cause = 0 := (initState_cause s key c).trans hs.1
  have hstatus : status (initState s key c) = status { State.reset with rdy := true } := status_congr hcause rfl rfl
  exact ⟨c, _, hksa, hs.runWords_init hpos hle hksa, initState_responses s key c, initState_cipher s key c, hi, hj,
    initState_rdy s key c, initState_klen s key c, hcause, hstatus.trans (by decide)⟩

/-- Settles O46: `runWords_init` on a buffer that holds the old bytes. -/
theorem leftoverKeyBytesAreUsed : Obligations.LeftoverKeyBytesAreUsed := by
  intro old key s hc hklen hpos hle hold
  obtain ⟨c, hksa⟩ := exists_ksaOf hpos hle
  exact ⟨c, _, hksa, runWords_init hc ⟨hklen, hold⟩ hpos hle hksa, initState_cipher s key c,
    initState_rdy s key c, (initState_cause s key c).trans hc⟩

theorem runWords_init_nil {s : State} (hs : CanStartKey s) :
    runWords (pseudoWords (.init [])) s = .next (raiseFault s .emptyKey) :=
  runWords_cons_next ((execWord_encode .ksa s).trans (execKsa_empty hs.1 hs.2))

/-- The words of `INIT` around a key byte `b` (R80). -/
theorem initWords_split (front rest : List Byte) (b : Byte) :
    pseudoWords (.init (front ++ b :: rest)) =
      (front.map .kput).map encode ++ encode (.kput b) :: (rest.map Instr.kput ++ [Instr.ksa]).map encode := by
  simp [pseudoWords, expand, initCommands]

/-- `INIT` with a key whose first 256 bytes are `front`: the block fills its key buffer, faults on `b` and refuses the words
after it (R151). -/
theorem runWords_init_long {s : State} (hs : CanStartKey s) {front : List Byte} (b : Byte) (rest : List Byte)
    (hfront : front.length = 256) :
    runWords (pseudoWords (.init (front ++ b :: rest))) s =
      .next { raiseFault (loadKey s front) .keyOverflow with
        responses := s.responses ++ List.replicate 256 okResponse ++ [⟨3, 0⟩] ++
          List.replicate (rest.length + 1) ⟨5, 0⟩ } := by
  obtain ⟨hc, hk⟩ := hs
  have hload : runWords ((front.map .kput).map encode) s = .next (loadKey s front) :=
    runWords_kputs hc (by rw [hk, hfront]; decide)
  have hfull : (loadKey s front).klen = 256 := by rw [loadKey_klen, hk, hfront]; rfl
  have hfault : execWord (encode (.kput b)) (loadKey s front) = .next (raiseFault (loadKey s front) .keyOverflow) :=
    (execWord_encode _ _).trans (execKput_full ((loadKey_cause s front).trans hc) hfull b)
  rw [initWords_split, runWords_append_next hload, runWords_cons_next hfault,
    runWords_refused (causeCode_ne_zero .keyOverflow) (by simp) (by simp), raiseFault_responses, loadKey_responses, hfront,
    List.length_append, List.length_map]
  rfl

/-- Settles O45: the empty key raises `Fault(2)`, and `runWords_init_long` is the run of a key that is too long. -/
theorem initRejectsBadLength : Obligations.InitRejectsBadLength := by
  refine ⟨fun s hs => runWords_init_nil hs, fun key s hs hlen => ?_⟩
  have hkey : key.take 256 ++ key[256] :: key.drop 257 = key := by
    rw [← List.drop_eq_getElem_cons, List.take_append_drop]
  have hfront : (key.take 256).length = 256 := List.length_take_of_le hlen.le
  have hrun := runWords_init_long hs key[256] (key.drop 257) hfront
  have hcount : (key.drop 257).length + 1 = key.length - 256 := by
    rw [List.length_drop]
    omega
  rw [hkey, hcount] at hrun
  refine ⟨_, hrun, rfl, ?_, loadKey_cipher s _, loadKey_rdy s _, rfl⟩
  rw [raiseFault_klen, loadKey_klen, hs.2, hfront]
  rfl

/-! ### The keystream of a CipherState -/

theorem keystream_succ {n : Nat} {c d e : CipherState} {z : Byte} {zs : List Byte} (hp : prga c = some (z, d))
    (hk : keystream n d = some (zs, e)) : keystream (n + 1) c = some (z :: zs, e) := by
  simp [keystream, hp, hk]

theorem keystream_succ_eq_some {n : Nat} {c e : CipherState} {zs : List Byte} (h : keystream (n + 1) c = some (zs, e)) :
    ∃ z d zs', prga c = some (z, d) ∧ keystream n d = some (zs', e) ∧ zs = z :: zs' := by
  simp only [keystream, Option.bind_eq_bind, Option.bind_eq_some_iff, Option.pure_def, Option.some.injEq,
    Prod.mk.injEq] at h
  obtain ⟨⟨z, d⟩, hp, ⟨zs', e'⟩, hk, rfl, rfl⟩ := h
  exact ⟨z, d, zs', hp, hk, rfl⟩

theorem keystream_length {n : Nat} {c d : CipherState} {zs : List Byte} (h : keystream n c = some (zs, d)) :
    zs.length = n := by
  induction n generalizing c zs with
  | zero => cases h; rfl
  | succ n ih =>
    obtain ⟨z, e, zs', -, hk, rfl⟩ := keystream_succ_eq_some h
    rw [List.length_cons, ih hk]

/-- From a permutation any number of keystream bytes can be made, and it stays a permutation (R157). -/
theorem keystream_of_isPerm (n : Nat) {c : CipherState} (hc : c.S.IsPerm) :
    ∃ zs d, keystream n c = some (zs, d) ∧ d.S.IsPerm := by
  induction n generalizing c with
  | zero => exact ⟨[], c, rfl, hc⟩
  | succ n ih =>
    obtain ⟨z, e, hp⟩ := prga_of_isPerm hc
    obtain ⟨zs, d, hk, hd⟩ := ih (prga_isPerm hc hp)
    exact ⟨z :: zs, d, keystream_succ hp hk, hd⟩

/-- The keystream bytes of `p + n` steps are those of `p` steps and then of `n` more (R152). -/
theorem keystream_add {p n : Nat} {c e : CipherState} {zs : List Byte} :
    keystream (p + n) c = some (zs, e) ↔
      ∃ ys d xs, keystream p c = some (ys, d) ∧ keystream n d = some (xs, e) ∧ zs = ys ++ xs := by
  induction p generalizing c zs with
  | zero => simp [keystream]
  | succ p ih =>
    rw [Nat.add_right_comm]
    constructor
    · intro h
      obtain ⟨z, f, zs', hp, hk, rfl⟩ := keystream_succ_eq_some h
      obtain ⟨ys, d, xs, hy, hx, rfl⟩ := ih.1 hk
      exact ⟨z :: ys, d, xs, keystream_succ hp hy, hx, rfl⟩
    · rintro ⟨ys, d, xs, hy, hx, rfl⟩
      obtain ⟨z, f, ys', hp, hk, rfl⟩ := keystream_succ_eq_some hy
      exact keystream_succ hp (ih.2 ⟨ys', d, xs, hk, hx, rfl⟩)

/-- `Z_key[m + 1]` is byte `m` of every longer piece of the keystream of `key` (R150). -/
theorem keystreamByte_eq {key zs : List Byte} {n m : Nat} {c d : CipherState} (hksa : ksaOf key = some c)
    (hk : keystream n c = some (zs, d)) (hm : m < n) : zs[m]? = keystreamByte key (m + 1) := by
  obtain ⟨k, rfl⟩ := Nat.exists_eq_add_of_lt hm
  rw [Nat.add_right_comm] at hk
  obtain ⟨ys, e, xs, hy, -, rfl⟩ := keystream_add.1 hk
  have hlen : ys.length = m + 1 := keystream_length hy
  rw [List.getElem?_append_left (by omega)]
  simp [keystreamByte, hksa, hy, List.getLast?_eq_getElem?, hlen]

theorem exists_keystream {key : List Byte} (n : Nat) (hpos : 1 ≤ key.length) (hle : key.length ≤ 256) :
    ∃ c zs d, ksaOf key = some c ∧ keystream n c = some (zs, d) := by
  obtain ⟨c, hksa⟩ := exists_ksaOf hpos hle
  obtain ⟨zs, d, hk, -⟩ := keystream_of_isPerm n (keySchedule_isPerm hksa)
  exact ⟨c, zs, d, hksa, hk⟩

/-! ### KEYSTREAM and the stream commands of ENCRYPT -/

/-- A run of stream commands in a ready block: the CipherState moves along its keystream, and each response carries what its
command makes of its keystream byte (R121, R122). -/
theorem runWords_streams {α : Type} {instr : α → Instr} {data : α → Byte → Byte}
    (hd : ∀ a, streamData (.command (instr a)) = some (data a)) {as : List α} {s : State} {zs : List Byte} {c : CipherState}
    (hc : s.cause = 0) (hr : s.rdy = true) (hk : keystream as.length (cipher s) = some (zs, c)) :
    runWords ((as.map instr).map encode) s =
      .next { setCipher s c with responses := s.responses ++ (List.zipWith data as zs).map byteResponse } := by
  induction as generalizing s zs with
  | nil => cases hk; simp [runWords, setCipher, cipher]
  | cons a as ih =>
    obtain ⟨z, e, zs', hp, hk', rfl⟩ := keystream_succ_eq_some hk
    have hw : execWord (encode (instr a)) s = .next (respond (setCipher s e) okCode (zext16 (data a z))) :=
      (execWord_of_streamData (by rw [decode_encode, hd]) s).trans (streamStep_run hc hr hp _)
    rw [List.map_cons, List.map_cons, runWords_cons_next hw, ih (s := respond (setCipher s e) _ _) hc hr hk',
      respond_responses, List.append_assoc]
    rfl

/-- `KEYSTREAM n` in a ready block gives the next `n` keystream bytes (R152). -/
theorem runWords_keystream {n : Nat} {s : State} {zs : List Byte} {c : CipherState} (hc : s.cause = 0)
    (hr : s.rdy = true) (hk : keystream n (cipher s) = some (zs, c)) :
    runWords (pseudoWords (.keystream n)) s =
      .next { setCipher s c with responses := s.responses ++ zs.map byteResponse } := by
  have hzip : List.zipWith (fun _ z => z) (List.replicate n ()) zs = zs := by
    have hlen : zs.length ≤ (List.replicate n ()).length := by rw [List.length_replicate, keystream_length hk]
    exact List.map_zipWith.symm.trans (List.map_snd_zip hlen)
  have hrun := runWords_streams (instr := fun _ : Unit => .next) (fun _ => rfl) (as := List.replicate n ()) hc hr
    (by rwa [List.length_replicate])
  rwa [hzip, List.map_replicate] at hrun

/-- Settles O47: the run of `KEYSTREAM n`, whose bytes follow the first `p` ones in the keystream of the key. -/
theorem keystreamGivesNextBytes : Obligations.KeystreamGivesNextBytes := by
  intro key zs p n c s _ _ hksa hpos hc hr
  obtain ⟨all, d, hall, -⟩ := keystream_of_isPerm (p + n) (keySchedule_isPerm hksa)
  obtain ⟨ys, e, out, hy, hout, rfl⟩ := keystream_add.1 hall
  obtain ⟨rfl, rfl⟩ := Prod.mk.inj (Option.some.inj (hy.symm.trans hpos))
  refine ⟨_, out, runWords_keystream hc hr hout, hall, keystream_length hout, fun m hm => ?_, rfl⟩
  rw [← keystreamByte_eq hksa hall (Nat.add_lt_add_left hm p), ← keystream_length hy,
    List.getElem?_append_right (Nat.le_add_right _ _), Nat.add_sub_cancel_left]

/-- Settles O48: the first `NEXT` raises `Fault(4)`, and the faulted block refuses the others. -/
theorem keystreamNotReady : Obligations.KeystreamNotReady := by
  intro n s hc hr
  have hw : execWord (encode .next) s = .next (raiseFault s .notReady) :=
    (execWord_encode _ s).trans (streamStep_notReady hc hr _)
  have hrefuse := runWords_refused (s := raiseFault s .notReady) (causeCode_ne_zero .notReady)
    (is := List.replicate n .next) (by simp) (by simp)
  refine (runWords_cons_next hw).trans (hrefuse.trans ?_)
  rw [raiseFault_responses, List.append_assoc, List.length_replicate]
  rfl

/-- `INIT key; KEYSTREAM n` answers `L + 1` times `(0, 0)` and then the first `n` keystream bytes of the key. -/
theorem runWords_init_keystream {key zs : List Byte} {n : Nat} {c d : CipherState} {s : State} (hs : CanStartKey s)
    (hpos : 1 ≤ key.length) (hle : key.length ≤ 256) (hksa : ksaOf key = some c) (hk : keystream n c = some (zs, d)) :
    ∃ t, runWords (pseudoWords (.init key) ++ pseudoWords (.keystream n)) s = .next t ∧
      t.responses = s.responses ++ (List.replicate (key.length + 1) okResponse ++ zs.map byteResponse) := by
  have hc : (initState s key c).cause = 0 := (initState_cause s key c).trans hs.1
  refine ⟨_, (runWords_append_next (hs.runWords_init hpos hle hksa)).trans (runWords_keystream hc (initState_rdy s key c) hk), ?_⟩
  rw [initState_responses, List.append_assoc]

/-- Settles O52: the responses of `runWords_init_keystream` name the key and `n` only. -/
theorem sameKeySameKeystream : Obligations.SameKeySameKeystream := by
  intro key n s u hs hu hpos hle
  obtain ⟨c, zs, d, hksa, hk⟩ := exists_keystream n hpos hle
  obtain ⟨s', hs', hrs⟩ := runWords_init_keystream hs hpos hle hksa hk
  obtain ⟨u', hu', hru⟩ := runWords_init_keystream hu hpos hle hksa hk
  exact ⟨s', u', _, hs', hu', hrs, hru⟩

/-! ### ENCRYPT -/

/-- The data bytes XORed with the keystream bytes at their positions (R153). -/
def xorBytes (data zs : List Byte) : List Byte := List.zipWith (fun d z => d ^^^ z) data zs

theorem xorBytes_length {data zs : List Byte} (h : zs.length = data.length) : (xorBytes data zs).length = data.length := by
  simp [xorBytes, h]

/-- XOR with the same bytes twice gives the data back (R154). -/
theorem xorBytes_xorBytes {data zs : List Byte} (h : zs.length = data.length) : xorBytes (xorBytes data zs) zs = data :=
  List.ext_getElem (by simp [xorBytes, h]) fun n _ _ => by simp [xorBytes]

/-- The words of `ENCRYPT` (R82). -/
theorem encryptWords_eq (data key : List Byte) :
    pseudoWords (.encrypt data key) =
      pseudoWords (.init key) ++ ((data.map .xorb).map encode ++ [encode .rst]) := by
  simp [pseudoWords, expand, encryptCommands]

/-- The responses to the `XORB` commands stand between the `L + 1` first ones and the one of `RST` (R82). -/
theorem xorbResponses_eq {data key : List Byte} {front mid : List Response} (last : List Response)
    (hfront : front.length = key.length + 1) (hmid : mid.length = data.length) :
    xorbResponses (front ++ mid ++ last) data key = mid := by
  rw [xorbResponses, List.append_assoc, ← hfront, List.drop_left, ← hmid, List.take_left]

/-- `ENCRYPT` with a key of 1 to 256 bytes (R153): the data bytes are XORed with the keystream, and `RST` ends the run. -/
theorem runWords_encrypt {data key zs : List Byte} {c c' : CipherState} {s : State} (hs : CanStartKey s)
    (hpos : 1 ≤ key.length) (hle : key.length ≤ 256) (hksa : ksaOf key = some c)
    (hk : keystream data.length c = some (zs, c')) :
    ∃ u, runWords (pseudoWords (.encrypt data key)) s = .next (respond (resetBlock u) okCode 0) ∧
      u.responses = s.responses ++ (List.replicate (key.length + 1) okResponse ++
        (xorBytes data zs).map byteResponse) := by
  have hc : (initState s key c).cause = 0 := (initState_cause s key c).trans hs.1
  have hrun := runWords_streams (instr := .xorb) (fun _ => rfl) (as := data) hc (initState_rdy s key c) hk
  have hcomm : List.zipWith (fun d z => z ^^^ d) data zs = xorBytes data zs :=
    congrArg (List.zipWith · data zs) (funext₂ fun d z => BitVec.xor_comm z d)
  rw [encryptWords_eq, runWords_append_next (hs.runWords_init hpos hle hksa), runWords_append_next hrun, runWords_rst]
  refine ⟨_, rfl, ?_⟩
  rw [initState_responses, List.append_assoc, hcomm]

/-- The result of `ENCRYPT` is the data XORed with the keystream of the key (R153). -/
theorem encryptResult_eq {data key zs : List Byte} {c c' : CipherState} {s : State} (hs : CanStartKey s)
    (hpos : 1 ≤ key.length) (hle : key.length ≤ 256) (hksa : ksaOf key = some c)
    (hk : keystream data.length c = some (zs, c')) :
    encryptResult s data key = some (xorBytes data zs) := by
  obtain ⟨u, hrun, hu⟩ := runWords_encrypt hs hpos hle hksa hk
  have hlen : ((xorBytes data zs).map byteResponse).length = data.length :=
    (List.length_map _).trans (xorBytes_length (keystream_length hk))
  have hgiven : (respond (resetBlock u) okCode 0).responses.drop s.responses.length =
      List.replicate (key.length + 1) okResponse ++ (xorBytes data zs).map byteResponse ++
        [okResponse] := by
    rw [respond_responses, resetBlock_responses, hu, List.append_assoc, List.drop_left]
    rfl
  have hok : allOk (List.replicate (key.length + 1) okResponse ++
      (xorBytes data zs).map byteResponse ++ [okResponse]) = true := by
    simp [allOk, okResponse, byteResponse]
  simp only [encryptResult, hrun, hgiven, hok, if_true]
  rw [xorbResponses_eq _ (List.length_replicate) hlen, streamBytes_byteResponse]

/-- Settles O49: the run of `runWords_encrypt`, ended by `RST`, and its result. -/
theorem encryptXorsKeystream : Obligations.EncryptXorsKeystream := by
  intro data key s hs hpos hle
  obtain ⟨c, zs, c', hksa, hk⟩ := exists_keystream data.length hpos hle
  obtain ⟨u, hrun, hu⟩ := runWords_encrypt hs hpos hle hksa hk
  refine ⟨c, zs, c', _, hksa, hk, fun m hm => keystreamByte_eq hksa hk hm, hrun, ?_, agree_reset u,
    encryptResult_eq hs hpos hle hksa hk⟩
  rw [respond_responses, resetBlock_responses, hu, List.append_assoc]
  rfl

/-- Settles O51: both runs XOR with the same keystream, and XOR with one byte twice gives the byte back. -/
theorem encryptTwiceGivesPlaintext : Obligations.EncryptTwiceGivesPlaintext := by
  refine ⟨fun _ _ => rfl, fun data key s u hs hu hpos hle => ?_⟩
  obtain ⟨c, zs, c', hksa, hk⟩ := exists_keystream data.length hpos hle
  have hlen : zs.length = data.length := keystream_length hk
  have hlen' := xorBytes_length hlen
  refine ⟨xorBytes data zs, encryptResult_eq hs hpos hle hksa hk, hlen', ?_⟩
  rw [encryptResult_eq hu hpos hle hksa (hlen'.symm ▸ hk), xorBytes_xorBytes hlen]

/-- `ENCRYPT` with the empty key (R153): `KSA` faults, the block refuses every `XORB`, and `RST` ends the run. -/
theorem runWords_encrypt_nil {s : State} (hs : CanStartKey s) (data : List Byte) :
    ∃ u, runWords (pseudoWords (.encrypt data [])) s = .next (respond (resetBlock u) okCode 0) ∧
      u.responses = s.responses ++ ⟨2, 0⟩ :: List.replicate data.length ⟨5, 0⟩ := by
  have hrefuse := runWords_refused (s := raiseFault s .emptyKey) (causeCode_ne_zero .emptyKey)
    (is := data.map .xorb) (by simp) (by simp)
  rw [encryptWords_eq, runWords_append_next (runWords_init_nil hs), runWords_append_next hrefuse, runWords_rst]
  refine ⟨_, rfl, ?_⟩
  rw [raiseFault_responses, List.append_assoc, List.length_map]
  rfl

/-- Settles O50: the run of `runWords_encrypt_nil`, in which no response to an `XORB` yields a byte and `(2, 0)` leaves no result. -/
theorem encryptWithEmptyKey : Obligations.EncryptWithEmptyKey := by
  intro data s hs
  obtain ⟨u, hrun, hu⟩ := runWords_encrypt_nil hs data
  have hgiven : (respond (resetBlock u) okCode 0).responses =
      s.responses ++ (⟨2, 0⟩ :: List.replicate data.length ⟨5, 0⟩ ++ [⟨0, 0⟩]) := by
    rw [respond_responses, resetBlock_responses, hu, List.append_assoc]
    rfl
  have hxorb : xorbResponses ((respond (resetBlock u) okCode 0).responses.drop s.responses.length) data [] =
      List.replicate data.length ⟨5, 0⟩ := by
    rw [hgiven, List.drop_left]
    exact xorbResponses_eq (front := [⟨2, 0⟩]) _ rfl List.length_replicate
  exact ⟨_, hrun, agree_reset u, hgiven, hxorb, hxorb ▸ streamBytes_refused data.length,
    encryptResult_eq_none hrun hgiven List.mem_cons_self (by decide)⟩

/-! ### The keystream does not depend on the data -/

/-- No rule reads the responses already given (R31). -/
theorem agree_withResponses (s : State) (rs : List Response) : Agree s { s with responses := rs } :=
  ⟨rfl, rfl, rfl, fun _ _ => rfl, fun _ => ⟨rfl, rfl, fun _ => rfl⟩⟩

/-- A word adds one response, and whatever responses were given before, it adds the same one and does the same. -/
theorem Answers.withResponses {d : Decoded} {s t : State} (h : Answers d s t) :
    ∃ r, t.responses = s.responses ++ [r] ∧
      ∀ rs, Answers d { s with responses := rs } { t with responses := rs ++ [r] } := by
  cases h with
  | rst => exact ⟨_, rfl, fun rs => .rst { s with responses := rs }⟩
  | stat => exact ⟨_, rfl, fun rs => .stat { s with responses := rs }⟩
  | kput b hc hk => exact ⟨_, rfl, fun rs => .kput (s := { s with responses := rs }) b hc hk⟩
  | ksa hc hk hs => exact ⟨_, rfl, fun rs => .ksa (s := { s with responses := rs }) hc hk hs⟩
  | stream hd hc hr hp => exact ⟨_, rfl, fun rs => .stream (s := { s with responses := rs }) hd hc hr hp⟩
  | raised hc h =>
    exact ⟨_, rfl, fun rs => .raised (s := { s with responses := rs }) hc (h.of_agree (agree_withResponses s rs))⟩
  | refused hc hrst hstat => exact ⟨_, rfl, fun rs => .refused (s := { s with responses := rs }) hc hrst hstat⟩

/-- A run that is answered has answered its first word. -/
theorem runWords_cons_eq_next {w : CmdWord} {ws : List CmdWord} {s t : State} (h : runWords (w :: ws) s = .next t) :
    ∃ u, execWord w s = .next u ∧ runWords ws u = .next t := by
  cases hw : execWord w s with
  | next u => exact ⟨u, rfl, (runWords_cons_next hw).symm.trans h⟩
  | fault | refused => simp [runWords, hw] at h

theorem runWords_append_eq_next {ws ws' : List CmdWord} {s t : State} (h : runWords (ws ++ ws') s = .next t) :
    ∃ u, runWords ws s = .next u ∧ runWords ws' u = .next t := by
  induction ws generalizing s with
  | nil => exact ⟨s, rfl, h⟩
  | cons w ws ih =>
    obtain ⟨v, hw, h⟩ := runWords_cons_eq_next h
    obtain ⟨u, hu, ht⟩ := ih h
    exact ⟨u, (runWords_cons_next hw).trans hu, ht⟩

/-- A run of words adds one response per word, and whatever responses were given before, it adds the same ones and does the
same. -/
theorem runWords_withResponses {ws : List CmdWord} {s t : State} (h : runWords ws s = .next t) :
    ∃ added, added.length = ws.length ∧ t.responses = s.responses ++ added ∧
      ∀ rs, runWords ws { s with responses := rs } = .next { t with responses := rs ++ added } := by
  induction ws generalizing s with
  | nil => cases h; exact ⟨[], rfl, by simp, fun rs => by simp [runWords]⟩
  | cons w ws ih =>
    obtain ⟨u, hw, h⟩ := runWords_cons_eq_next h
    obtain ⟨r, hr, hanswers⟩ := (execWord_eq_next_iff.1 hw).withResponses
    obtain ⟨added, hlen, hadded, hrun⟩ := ih h
    refine ⟨r :: added, by simp [hlen], by simp [hadded, hr], fun rs => ?_⟩
    rw [runWords_cons_next (execWord_eq_next_iff.2 (hanswers rs)), List.append_cons rs r added]
    exact hrun (rs ++ [r])

/-- Stream commands differ in their response only: what one makes of the keystream byte changes nothing else (R156). -/
theorem streamStep_change_data {s t : State} {data : Byte → Byte} (h : streamStep s data = .next t)
    (data' : Byte → Byte) : ∃ r, streamStep s data' = .next { t with responses := s.responses ++ [r] } := by
  rcases streamStep_next h with ⟨hc, rfl⟩ | ⟨hc, hr, rfl⟩ | ⟨hc, hr, z, c, hp, rfl⟩
  · exact ⟨_, streamStep_faulted hc data'⟩
  · exact ⟨_, streamStep_notReady hc hr data'⟩
  · exact ⟨_, streamStep_run hc hr hp data'⟩

/-- Settles O53: the run splits at the replaced word, which changes its own response only, and the words after it do not
read that response. -/
theorem keystreamIgnoresData : Obligations.KeystreamIgnoresData := by
  intro before after b i s t hi h
  obtain ⟨u, hbefore, h⟩ := runWords_append_eq_next h
  obtain ⟨v, hxorb, hafter⟩ := runWords_cons_eq_next h
  obtain ⟨given, hlen, hu, -⟩ := runWords_withResponses hbefore
  obtain ⟨x, hv, -⟩ := (execWord_eq_next_iff.1 hxorb).withResponses
  obtain ⟨added, -, ht, hrun⟩ := runWords_withResponses hafter
  obtain ⟨data, hdata⟩ := exec_eq_streamStep hi u
  obtain ⟨r, hr⟩ := streamStep_change_data ((execWord_encode _ u).symm.trans hxorb) data
  have hw : execWord (encode i) u = .next { v with responses := u.responses ++ [r] } :=
    (execWord_encode i u).trans (hdata.trans hr)
  have hset : t.responses.set (s.responses.length + before.length) r = u.responses ++ [r] ++ added := by
    have hk : s.responses.length + before.length = u.responses.length := by rw [hu, List.length_append, hlen]
    rw [ht, hv, hk]
    simp
  refine ⟨r, ?_⟩
  rw [runWords_append_next hbefore, runWords_cons_next hw, hrun, hset]

end Sys2Proof.Machine
end

/-! ## Commands, faults and exceptions: the step, the envelope, fault entry and exit, blocks side by side (spec/60_exceptions.md)

`step_of_inputs_cons` and `step_of_inputs_nil` say what a step does. The envelope (R170) is a case analysis on `CAUSE`: a faulted
block gives `faultedResponse` to every word but `RST`, and fault entry is `execWord_of_raises`. Only `RST` and hardware reset
clear `CAUSE` (`isExit_of_execEvent`), and each gives the reset state (`execEvent_of_isExit`). -/

section
namespace Sys2Proof.Machine

/-! ### The step -/

theorem step_of_inputs_nil {s : State} (h : s.inputs = []) : step s = .next s := by
  simp [step, stepEvent, takeEvent, h]

theorem step_of_inputs_cons {s : State} {e : HostEvent} {rest : List HostEvent} (h : s.inputs = e :: rest) :
    step s = execEvent e { s with inputs := rest } := by
  simp [step, stepEvent, takeEvent, h]

/-- Settles O6: `step_command` on the word the host presents, which decodes to a command or is illegal. -/
theorem stepRunsDecodedCommand : Obligations.StepRunsDecodedCommand := by
  refine ⟨fun s w rest i hin hd => ?_, fun s w rest why hin hd => ?_, fun s w => ?_, fun s => step_of_inputs_nil⟩
  · exact (step_command hin).trans (execWord_command hd _)
  · exact (step_command hin).trans (execWord_illegal hd _)
  · rw [withFetchWord_eq, tableWord_toNat]
    exact step_command (presentWord_inputs s w)

/-- From a state that meets the invariant every event of the host is executed (R170, R200). -/
theorem Inv.exists_execEvent {s : State} (hi : Inv s) (e : HostEvent) : ∃ t, execEvent e s = .next t := by
  cases e with
  | command w => exact hi.exists_execWord w
  | reset | resetDuring w => exact ⟨_, rfl⟩

/-- Settles O39: a step waits or executes one event, and the invariant does not look at the events still to come. -/
theorem invariantStepNeverStops : Obligations.InvariantStepNeverStops := by
  intro s hi
  cases hin : s.inputs with
  | nil => exact ⟨s, step_of_inputs_nil hin⟩
  | cons e rest =>
    rw [step_of_inputs_cons hin]
    exact (hi.withInputs rest).exists_execEvent e

/-! ### Fault entry -/

/-- Settles O28: each of the four cases is one of `Raises`, with the code of its fault, which is not 0. -/
theorem faultEntryIsPrecise : Obligations.FaultEntryIsPrecise := by
  intro s w code hc h
  have hraises : ∃ c, Raises (decode w) s c ∧ causeCode c = code := by
    rcases h with ⟨⟨why, hd⟩, rfl⟩ | ⟨hd, hk, rfl⟩ | ⟨⟨b, hd⟩, hk, rfl⟩ | ⟨hd | ⟨b, hd⟩, hr, rfl⟩ <;> rw [hd]
    · exact ⟨_, .illegal why, rfl⟩
    · exact ⟨_, .emptyKey hk, rfl⟩
    · exact ⟨_, .keyOverflow b hk, rfl⟩
    · exact ⟨_, .notReady rfl hr, rfl⟩
    · exact ⟨_, .notReady rfl hr, rfl⟩
  obtain ⟨c, hraises, rfl⟩ := hraises
  exact ⟨_, execWord_of_raises hc hraises, rfl, (flt_eq_true_iff _).2 (causeCode_ne_zero c), status_cause _⟩

/-- A word that no row of the opcode map matches is ILLEGAL (R74, R76): a command's word is covered by its own row. -/
theorem decode_illegal_of_not_covered {w : CmdWord} (h : ∀ row ∈ opcodeTable, w &&& row.mask ≠ row.pattern) :
    ∃ why, decode w = .illegal why := by
  refine (decode_cases w).resolve_left ?_
  rintro ⟨i, hi⟩
  obtain ⟨hcovers, hrow⟩ := encodingMatchesRow i
  rw [← eq_encode_of_decode hi] at hcovers
  exact h _ hrow (eq_of_beq hcovers)

/-- Settles O29: the word is illegal, and an illegal word raises `Fault(1)` in a block that is not faulted. -/
theorem illegalWordRaisesCodeOne : Obligations.IllegalWordRaisesCodeOne := by
  intro w s hc h
  obtain ⟨why, hd⟩ := decode_illegal_of_not_covered h
  exact (execWord_illegal_eq hd s).trans (if_pos hc)

/-! ### While faulted -/

theorem decode_eq_rst_iff {w : CmdWord} : decode w = .command .rst ↔ w = 0x0100 := decode_eq_command_iff

theorem decode_eq_stat_iff {w : CmdWord} : decode w = .command .stat ↔ w = 0x0200 := decode_eq_command_iff

/-- Settles O30: a word other than these two decodes to neither `RST` nor `STAT`. -/
theorem refusedWhileFaulted : Obligations.RefusedWhileFaulted := by
  intro w s hc hrst hstat
  exact execWord_of_faulted hc (mt decode_eq_rst_iff.1 hrst) (mt decode_eq_stat_iff.1 hstat)

/-- Settles O7: while faulted, `RST` and `STAT` run and every other word is refused; otherwise an illegal word raises `Fault(1)`
and a command runs. Each answer is a case of `Answers`, which gives one response. -/
theorem envelopeOfEveryCommand : Obligations.EnvelopeOfEveryCommand := by
  refine ⟨fun w s => ?_, fun w s hi => ?_⟩
  · split_ifs with hc hrst hstat
    · exact execWord_command hrst s
    · exact execWord_command hstat s
    · exact execWord_of_faulted hc hrst hstat
    · split
      next why hd => exact (execWord_illegal_eq hd s).trans (if_pos (not_not.1 hc))
      next i hd => exact execWord_command hd s
  · obtain ⟨t, ht⟩ := hi.exists_execWord w
    obtain ⟨r, hr, -⟩ := (execWord_eq_next_iff.1 ht).response
    exact ⟨t, r, ht, hr⟩

/-- The response of a faulted block to a word that is not `RST`: `STATUS` to `STAT`, and the refusal to every other (R175). -/
def faultedResponse (s : State) (w : CmdWord) : Response := if w = 0x0200 then ⟨0, status s⟩ else ⟨5, 0⟩

theorem execWord_faulted {w : CmdWord} {s : State} (hc : s.cause ≠ 0) (hrst : w ≠ 0x0100) :
    execWord w s = .next (respond s (faultedResponse s w).err (faultedResponse s w).data) := by
  unfold faultedResponse
  split
  next hstat => exact execWord_command (decode_eq_stat_iff.2 hstat) s
  next hstat => exact refusedWhileFaulted w s hc hrst hstat

/-- A faulted block keeps its whole state through words other than `RST`, so each word gets the response it would get first. -/
theorem runWords_faulted {ws : List CmdWord} {s : State} (hc : s.cause ≠ 0) (hrst : (0x0100 : CmdWord) ∉ ws) :
    runWords ws s = .next { s with responses := s.responses ++ ws.map (faultedResponse s) } := by
  induction ws generalizing s with
  | nil => simp [runWords]
  | cons w ws ih =>
    obtain ⟨hw, hws⟩ := List.ne_and_not_mem_of_not_mem_cons hrst
    have hkept : ∀ err data, faultedResponse (respond s err data) = faultedResponse s := fun _ _ => rfl
    rw [runWords_cons_next (execWord_faulted hc hw.symm), ih (s := respond s _ _) hc hws, hkept, respond_responses,
      List.append_assoc, List.map_cons]
    rfl

/-- Settles O31, by `runWords_faulted`. -/
theorem firstCauseIsKept : Obligations.FirstCauseIsKept := fun _ _ => runWords_faulted

/-! ### Leaving the faulted state -/

/-- The command `RST` and the two kinds of hardware reset give the reset state, from every state (R140, R177, R200). -/
theorem execEvent_of_isExit {e : HostEvent} (he : e = .command 0x0100 ∨ e = .reset ∨ ∃ w, e = .resetDuring w) (s : State) :
    ∃ t, execEvent e s = .next t ∧ t.cause = 0 ∧ Agree t State.reset := by
  rcases he with rfl | he
  · exact ⟨_, execWord_encode .rst s, rfl, agree_reset s⟩
  · exact ⟨_, execEvent_of_isReset he s, rfl, rfl, rfl, rfl, fun _ _ => rfl, nofun⟩

/-- An event that clears `CAUSE` is one of the exits: every word but `RST` keeps it (R28, R177). -/
theorem isExit_of_execEvent {e : HostEvent} {s t : State} (hs : s.cause ≠ 0) (h : execEvent e s = .next t)
    (ht : t.cause = 0) : e = .command 0x0100 ∨ e = .reset ∨ ∃ w, e = .resetDuring w := by
  cases e with
  | reset => exact .inr (.inl rfl)
  | resetDuring w => exact .inr (.inr ⟨w, rfl⟩)
  | command w =>
    by_cases hrst : decode w = .command .rst
    · exact .inl (congrArg _ (decode_eq_rst_iff.1 hrst))
    · exact absurd (((execWord_eq_next_iff.1 h).cause_eq hs hrst).symm.trans ht) hs

/-- Settles O32: an event that clears `CAUSE` is one of the exits, and its next state is the one that exit gives. -/
theorem onlyResetLeavesFault : Obligations.OnlyResetLeavesFault := by
  refine ⟨fun e s t hs h ht => ?_, fun e s he => execEvent_of_isExit he s⟩
  have he := isExit_of_execEvent hs h ht
  obtain ⟨u, hu, -, hagree⟩ := execEvent_of_isExit he s
  obtain rfl : u = t := Host.Outcome.next.inj (hu.symm.trans h)
  exact ⟨he, hagree⟩

/-! ### Blocks side by side -/

/-- A step of block `k` replaces that block by its own next state, and does nothing else (R187). -/
theorem stepBlock_eq_next_iff {k : Nat} {bs cs : Blocks} :
    stepBlock k bs = some (.next cs) ↔ ∃ s t, bs[k]? = some s ∧ step s = .next t ∧ cs = bs.set k t := by
  constructor
  · intro h
    unfold stepBlock at h
    split at h
    · cases h
    next s hs =>
      split at h <;> cases h
      next t ht => exact ⟨s, t, hs, ht, rfl⟩
  · rintro ⟨s, t, hs, ht, rfl⟩
    simp [stepBlock, hs, ht]

/-- Settles O43: a step replaces one entry of the list, and replacements of two different entries commute. -/
theorem blocksAreIndependent : Obligations.BlocksAreIndependent := by
  refine ⟨fun k bs cs h => ?_, fun k m bs cs ds hkm hk hm => ?_⟩
  · obtain ⟨s, t, hs, ht, rfl⟩ := stepBlock_eq_next_iff.1 h
    obtain ⟨hlt, -⟩ := List.getElem?_eq_some_iff.1 hs
    exact ⟨s, t, hs, ht, List.getElem?_set_self hlt, List.length_set, fun m hm => List.getElem?_set_ne hm.symm⟩
  · obtain ⟨s, t, hs, ht, rfl⟩ := stepBlock_eq_next_iff.1 hk
    obtain ⟨u, v, hu, hv, rfl⟩ := stepBlock_eq_next_iff.1 hm
    rw [List.getElem?_set_ne hkm] at hu
    refine ⟨_, stepBlock_eq_next_iff.2 ⟨u, v, hu, hv, rfl⟩, stepBlock_eq_next_iff.2 ⟨s, t, ?_, ht, ?_⟩⟩
    · rw [List.getElem?_set_ne hkm.symm, hs]
    · exact List.set_comm t v hkm

end Sys2Proof.Machine
end

/-! ## Reset, hazards and the order of events (spec/70_reset_and_hazards.md)

No command looks at what the host will send next: `execWord_presentWords` says that a word does the same with more words waiting
behind it, and `Answers.inputs_eq` that it leaves them waiting. So the machine's steps over a list of words are the run of the
words, and a step answers exactly its own command (R206). -/

section
namespace Sys2Proof.Machine

/-! ### Words that wait behind a command -/

/-- An outcome in which, if it is a next state, the words `ws` stand first among what the host still does. -/
def presentAfter (ws : List CmdWord) : Host.Outcome State Fault Refusal → Host.Outcome State Fault Refusal
  | .next t => .next (presentWords t ws)
  | .fault f => .fault f
  | .refused r => .refused r

theorem streamStep_presentWords (s : State) (ws : List CmdWord) (data : Byte → Byte) :
    streamStep (presentWords s ws) data = presentAfter ws (streamStep s data) := by
  by_cases hc : s.cause = 0
  · cases hr : s.rdy with
    | false => rw [streamStep_notReady hc hr]; exact streamStep_notReady (s := presentWords s ws) hc hr data
    | true =>
      cases hp : prga (cipher s) with
      | none => rw [streamStep_unwritten hc hr hp]; exact streamStep_unwritten (s := presentWords s ws) hc hr hp data
      | some zc => rw [streamStep_run hc hr hp]; exact streamStep_run (s := presentWords s ws) hc hr hp data
  · rw [streamStep_faulted hc]; exact streamStep_faulted (s := presentWords s ws) hc data

theorem execKput_presentWords (b : Byte) (s : State) (ws : List CmdWord) :
    execKput b (presentWords s ws) = presentAfter ws (execKput b s) := by
  by_cases hc : s.cause = 0
  · by_cases hk : s.klen = 256
    · rw [execKput_full hc hk]; exact execKput_full (s := presentWords s ws) hc hk b
    · rw [execKput_run hc hk]; exact execKput_run (s := presentWords s ws) hc hk b
  · rw [execKput_faulted hc]; exact execKput_faulted (s := presentWords s ws) hc b

theorem execKsa_presentWords (s : State) (ws : List CmdWord) :
    execKsa (presentWords s ws) = presentAfter ws (execKsa s) := by
  by_cases hc : s.cause = 0
  · by_cases hk : s.klen = 0
    · rw [execKsa_empty hc hk]; exact execKsa_empty hc hk
    · cases hs : keySchedule s.K s.klen with
      | none => rw [execKsa_unwritten hc hk hs]; exact execKsa_unwritten hc hk hs
      | some c => rw [execKsa_run hc hk hs]; exact execKsa_run hc hk hs
  · rw [execKsa_faulted hc]; exact execKsa_faulted hc

theorem exec_presentWords (i : Instr) (s : State) (ws : List CmdWord) :
    exec i (presentWords s ws) = presentAfter ws (exec i s) := by
  cases i with
  | rst | stat => rfl
  | kput b => exact execKput_presentWords b s ws
  | ksa => exact execKsa_presentWords s ws
  | next | xorb b => exact streamStep_presentWords s ws _

/-- A word does the same whatever words wait behind it, and leaves them waiting (R206). -/
theorem execWord_presentWords (w : CmdWord) (s : State) (ws : List CmdWord) :
    execWord w (presentWords s ws) = presentAfter ws (execWord w s) := by
  rcases decode_cases w with ⟨i, hd⟩ | ⟨why, hd⟩
  · rw [execWord_command hd, execWord_command hd, exec_presentWords]
  · rw [execWord_illegal_eq hd, execWord_illegal_eq hd, apply_ite (presentAfter ws)]
    rfl

/-- The first step over presented words executes the first of them, with the others waiting behind it. -/
theorem step_presentWords_cons (s : State) (w : CmdWord) (ws : List CmdWord) :
    step (presentWords s (w :: ws)) = presentAfter ws (execWord w s) :=
  (step_command rfl).trans (execWord_presentWords w s ws)

theorem runWords_cons_fault {w : CmdWord} {ws : List CmdWord} {s : State} {f : Fault} (h : execWord w s = .fault f) :
    runWords (w :: ws) s = .fault f := by
  simp [runWords, h]

theorem runWords_cons_refused {w : CmdWord} {ws : List CmdWord} {s : State} {r : Refusal} (h : execWord w s = .refused r) :
    runWords (w :: ws) s = .refused r := by
  simp [runWords, h]

/-- Settles O10, by induction on the words: each step executes the first word waiting, and stops where the run of words stops. -/
theorem runOfWordsIsSteps : Obligations.RunOfWordsIsSteps := by
  intro ws
  induction ws with
  | nil => exact fun s => rfl
  | cons w ws ih =>
    intro s
    have hstep := step_presentWords_cons s w ws
    cases hw : execWord w s with
    | next t =>
      rw [hw] at hstep
      exact (core_run_next hstep).trans ((ih t).trans (runWords_cons_next hw).symm)
    | fault f =>
      rw [hw] at hstep
      exact (core_run_fault hstep).trans (runWords_cons_fault hw).symm
    | refused r =>
      rw [hw] at hstep
      exact (core_run_refused hstep).trans (runWords_cons_refused hw).symm

/-! ### One step, one response -/

theorem Answers.inputs_eq {d : Decoded} {s t : State} (h : Answers d s t) : t.inputs = s.inputs := by
  cases h with
  | rst | stat | kput | ksa | stream | raised | refused => rfl

/-- Settles O11: the word is answered in the state in which it has been taken, which still meets the invariant, and each case of
`Answers` gives one response and leaves the events to come. -/
theorem commandAnsweredInOneStep : Obligations.CommandAnsweredInOneStep := by
  intro s w rest hi hin
  obtain ⟨t, ht⟩ := (hi.withInputs rest).exists_execWord w
  have hanswers := execWord_eq_next_iff.1 ht
  obtain ⟨r, hr, -⟩ := hanswers.response
  exact ⟨t, r, (step_command hin).trans ht, hanswers.inputs_eq, hr⟩

/-! ### Reset -/

theorem agree_resetBlock_reset (s : State) : Agree (resetBlock s) State.reset :=
  ⟨rfl, rfl, rfl, fun _ _ => rfl, nofun⟩

/-- Settles O33: either kind of hardware reset is `resetBlock`, which gives no response and leaves the host's further events. -/
theorem hardwareResetWins : Obligations.HardwareResetWins := by
  intro e s rest he hin
  have hagree := agree_resetBlock_reset { s with inputs := rest }
  exact ⟨_, (step_of_inputs_cons hin).trans (execEvent_of_isReset he _), hagree.rdy, hagree.cause, hagree.klen, hagree,
    resetBlock_responses _, resetBlock_inputs _⟩

/-- A stream command on the block after reset faults with code 4 (R121, R122, R204). -/
theorem streamStep_reset (data : Byte → Byte) : streamStep State.reset data = .next (raiseFault State.reset .notReady) :=
  streamStep_notReady rfl rfl data

/-- Settles O36: after reset `CAUSE`, `RDY` and `KLEN` are 0, which picks the case of each command. -/
theorem firstCommandsAfterReset : Obligations.FirstCommandsAfterReset := by
  refine ⟨?stat, ?next, fun b => ?xorb, ?ksa, fun b => ?kput, ?rst, fun w hw => ?illegal⟩
  case stat => exact ⟨_, exec_stat_eq _, by rw [respond_responses, status_reset]; rfl⟩
  case next => exact ⟨_, streamStep_reset (fun z => z), rfl, rfl⟩
  case xorb => exact ⟨_, streamStep_reset (fun z => z ^^^ b), rfl, rfl⟩
  case ksa => exact ⟨_, execKsa_empty rfl rfl, rfl, rfl⟩
  case kput => exact ⟨_, execKput_run rfl (by decide) b, rfl, rfl, rfl⟩
  case rst => exact ⟨_, exec_rst_eq _, agree_reset _, rfl⟩
  case illegal =>
    obtain ⟨why, hd⟩ := hw
    exact ⟨_, (execWord_illegal_eq hd _).trans (if_pos rfl), rfl, rfl⟩

end Sys2Proof.Machine
end
